-- ==== Sys2Proof/Word.lean ====
section
/-! DEFINITION. The two word types of the encoder: the 64-bit words on its ports (00_scope R11, R15) and
the 8-bit bytes of the key (R13). Every 64-bit value is read as unsigned (R16). -/

namespace Sys2Proof

/-- A 64-bit port value, bit 0 the least significant (00_scope R15). -/
abbrev Word := BitVec 64

/-- One byte of the key's byte view (00_scope R13). -/
abbrev Byte := BitVec 8

end Sys2Proof
end

