-- ==== Sys2Proof/Machine/Bytes.lean ====
section
/-! DEFINITION. The byte view of the key, and the comparison of byte sequences. The byte order is decided
here and nowhere else. -/

namespace Sys2Proof.Machine

/-- `kb[i] = key[63 - 8*i : 56 - 8*i]` (20_memory R31). -/
def byteLane (key : Word) (i : Fin 8) : Byte := key.extractLsb' (56 - 8 * i.val) 8

/-- The 8-byte big-endian sequence `kb[0..7]` of a key, most significant byte first (20_memory R31); no
other order exists (R32). -/
def toBytes (key : Word) : Vector Byte 8 :=
  #v[byteLane key 0, byteLane key 1, byteLane key 2, byteLane key 3,
     byteLane key 4, byteLane key 5, byteLane key 6, byteLane key 7]

/-- The smallest index at which two 8-byte sequences differ, if there is one (00_scope R17). -/
def firstDifference (a b : Vector Byte 8) : Option (Fin 8) :=
  (List.finRange 8).find? fun i => a[i] != b[i]

/-- Lexicographic comparison of 8-byte sequences: the first differing bytes, read as unsigned, decide, and
where there are none the sequences are equal (00_scope R17). The spec's host step `LEXCMP` yields this
(30_encoding R55). -/
def lexCompare (a b : Vector Byte 8) : Ordering :=
  match firstDifference a b with
  | none => .eq
  | some i => if a[i].toNat < b[i].toNat then .lt else .gt

/-- `A lex< B` (00_scope R17). -/
def lexLess (a b : Vector Byte 8) : Bool := lexCompare a b == .lt

end Sys2Proof.Machine
end

