-- ==== Sys2Proof/Machine/Flags.lean ====
section
/-! DEFINITION. Flags: the block has none, and ENCODE writes none (10_state R25). The only bit of it that
resembles one is the class bit, which is part of the key (30_encoding R46). -/

namespace Sys2Proof.Machine

/-- The class bit `key[63]`: 1 exactly for the keys of inputs with sign 0 (30_encoding R46). -/
def classBit (key : Word) : Bool := key[63]

/-- The order field `key[62:0]` (30_encoding R46). -/
def orderField (key : Word) : BitVec 63 := key.extractLsb' 0 63

end Sys2Proof.Machine
end

