-- ==== Sys2Proof/Config.lean ====
section
/-! DEFINITION. What is fixed for every implementation of the encoder (00_scope R11 to R14). The width of
the key, 8 bytes (R13), is in the types of Machine/Bytes.lean.

ENCODE has no free value: the one open parameter, the settling time `T_PROP`, is by 00_scope R14 not
represented by a model (log entry 4), and the policies for NaN, infinity and signed zero are decided by
the spec (92_eei_decisions D3, D4, D19), so they are part of ENCODE and no configuration. The one free
value belongs to a step of the host: where SORT_BY_VALUE puts a NaN. -/

namespace Sys2Proof.Config

/-- The width of the input port `f`: 64 bits, fixed (00_scope R11). -/
def inputBits : Nat := 64

/-- The binary64 exponent bias. PRESUMED: 00_scope R18 supplies it from general knowledge, and ENCODE
does not depend on it; only the meaning of "numeric value" in the laws does (unsafe, log entry 7). -/
def exponentBias : Nat := 1023

/-- The number of fraction bits (00_scope R12). -/
def fractionBits : Nat := 52

/-- A free value: the position at which SORT_BY_VALUE puts a NaN pair, one for each draw. DESIGN CHOICE:
30_encoding R55 orders by numeric value and 00_scope R18 gives a NaN none, so no rule says where it comes to
stand. It has no body, so nothing can be proved of it (safe, log entry 11). -/
opaque freePlace : Nat → Nat

end Sys2Proof.Config
end

