-- ==== Sys2Proof/Syntax.lean ====
section
/-! DEFINITION. The instruction set: the one row of spec/opcode_table.json (40_encode R56), with its
operand in the input format F64IN (30_encoding R45). -/

namespace Sys2Proof

/-- The input format `F64IN` (30_encoding R45): the fields of the one operand, which is the whole input
word (R49). The three widths tile the 64 bits exactly (00_scope R12). -/
structure F64In where
  /-- `f[63]`: 1 = negative, 0 = non-negative. -/
  sign : BitVec 1
  /-- `f[62:52]`, read as unsigned and never decoded by the block. -/
  exp : BitVec 11
  /-- `f[51:0]`, read as unsigned and never decoded by the block. -/
  frac : BitVec 52
  deriving DecidableEq, Repr

/-- The instructions of the encoder: it has the single operation ENCODE (00_scope R2, 40_encode R56).
There is no constructor for a decode (R64) or for the legacy 9-byte variant (R76). -/
inductive Instr where
  /-- ENCODE: the key of one 64-bit input (40_encode R56). -/
  | encode (f : F64In)
  deriving DecidableEq, Repr

end Sys2Proof
end

