-- ==== Sys2Proof/WellFormed.lean ====
section
/-! DEFINITION. What counts as an input word of the encoder, and as a well-formed instruction. -/

namespace Sys2Proof

/-- `nbits` bits with the value `w` are an input of the block when there are exactly 64 of them
(00_scope R11, 30_encoding R52: there is no shorter, longer or prefixed form) and `w` fits in them. -/
def wellFormedInput (nbits w : Nat) : Bool :=
  nbits == Config.inputBits && decide (w < 2 ^ nbits)

/-- No input pattern is reserved, illegal or a hint (30_encoding R51), and the widths of the fields are
fixed by their types, so every instruction is well formed. -/
def Instr.wellFormed : Instr → Bool
  | .encode _ => true

end Sys2Proof
end

