-- ==== Sys2Proof/Decode.lean ====
section
/-! DEFINITION. The decoder of input words, and the encoder (assembler) of instructions beside it.

The input port has no byte order (20_memory R34): an input is a 64-bit word, not a sequence of bytes, so
the decoder takes a number of bits and their value. It never refuses a 64-bit word (30_encoding R51), and
refuses by name what is not one (R52). -/

namespace Sys2Proof

/-- The word a F64IN operand stands for: sign, exponent and fraction in the places of 30_encoding R45. -/
def F64In.word (f : F64In) : Word := f.sign ++ f.exp ++ f.frac

/-- The F64IN fields of a word (30_encoding R45). -/
def F64In.ofWord (w : Word) : F64In where
  sign := w.extractLsb' 63 1
  exp := w.extractLsb' 52 11
  frac := w.extractLsb' 0 52

/-- `mask` of the row ENCODE of spec/opcode_table.json (30_encoding R47). -/
def encodeRowMask : Word := 0x0000000000000000

/-- `match` of the row ENCODE of spec/opcode_table.json (30_encoding R47). -/
def encodeRowMatch : Word := 0x0000000000000000

/-- The row ENCODE selects the words that agree with its `match` under its `mask`. -/
def encodeRowSelects (w : Word) : Bool := w &&& encodeRowMask == encodeRowMatch

/-- Why some bits are no input of the block. -/
inductive DecodeRefusal where
  /-- There are not exactly 64 bits (30_encoding R52). -/
  | notSixtyFourBits (nbits : Nat)
  /-- The value does not fit in the bits given. -/
  | valueTooWide (nbits w : Nat)
  /-- No row of the opcode table selects the word. With the one row's mask 0 this answer is given for
  no word (30_encoding R47, R51). -/
  | noRow (w : Word)
  deriving DecidableEq, Repr

/-- The instruction a 64-bit input word selects: always ENCODE, whose operand is the word (30_encoding
R47, R49). -/
def decode (w : Word) : Instr := .encode (F64In.ofWord w)

/-- The instruction that `nbits` bits with the value `w` select, or the name of what is wrong with them:
the width first (30_encoding R52), then the opcode table's row (R47). -/
def decodeInput (nbits w : Nat) : Except DecodeRefusal Instr :=
  if nbits ≠ Config.inputBits then .error (.notSixtyFourBits nbits)
  else if ¬ w < 2 ^ nbits then .error (.valueTooWide nbits w)
  else if encodeRowSelects (BitVec.ofNat 64 w) then .ok (decode (BitVec.ofNat 64 w))
  else .error (.noRow (BitVec.ofNat 64 w))

/-- The host's numbering of a table word: `nbits` bits of value `w`, every bit above them 0, up to the 64
bits of an input; none where the decoder refuses. -/
def decodeTableWord (nbits w : Nat) : Option Instr :=
  if nbits ≤ Config.inputBits ∧ w < 2 ^ nbits then (decodeInput Config.inputBits w).toOption else none

/-- The input word of an instruction: the "encoding" of a transaction is its input word (30_encoding
R54). -/
def encodeInstr : Instr → Word
  | .encode f => f.word

end Sys2Proof
end

