-- ==== Sys2Proof/Machine/Operands.lean ====
section
/-! DEFINITION. The one operand form of ENCODE (30_encoding R49) and the field its branch reads (R48). -/

namespace Sys2Proof.Machine

/-- The operand of ENCODE is the whole input word, reinterpreted as an unsigned integer with the same bits
in the same places: `bits = f`, with no conversion, rounding or canonicalisation (30_encoding R49,
40_encode R57). -/
def operandBits (f : F64In) : Word := f.word

/-- `f[63]`, the only bit that takes part in the choice of the branch (30_encoding R48). -/
def signBit (bits : Word) : Bool := bits[63]

end Sys2Proof.Machine
end

