-- ==== Sys2Proof/Machine/State.lean ====
section
/-! DEFINITION. The state of a run, and the reasons a step can stop.

The block itself holds no state at all (10_state R20, R23 to R29). `State` holds the one input port
(10_state R21) and the other agent, the host (10_state R19): the transactions and host-side steps it has
still to do (70_reset R100), the (input, key) pairs it has sampled (the list `L` of 95_test_vectors), and
what its own steps have yielded (30_encoding R55). The output ports `key` and `kb` are no state (10_state
R30): they are computed from the input port, in Machine/Ops.lean. There is no memory (R28, R35). -/

namespace Sys2Proof.Machine

/-- The observation of one transaction: the pair of the input word and the key sampled for it
(70_reset R100). -/
structure Observation where
  /-- The word that was on `f`. -/
  input : Word
  /-- The word that was on `key`. -/
  key : Word
  deriving DecidableEq, Repr

/-- A list of observations as a host-side step names it (30_encoding R55). DESIGN CHOICE: the spec gives
the steps and not a syntax of their operands; 95_test_vectors W4 nests them, P1 names their results
(log entry 9). -/
inductive ListExpr where
  /-- The host's list `L` of all pairs sampled so far. -/
  | pairs
  /-- The list an earlier SORT step yielded: the result at this index, counted from 0. -/
  | result (i : Nat)
  /-- `SORT_BY_KEY`. -/
  | sortByKey (l : ListExpr)
  /-- `SORT_BY_VALUE`. -/
  | sortByValue (l : ListExpr)
  deriving DecidableEq, Repr

/-- A key as a host-side step names it: a word written out, or the key of a sampled pair, counted from 0
(30_encoding R55; DESIGN CHOICE, log entry 9). -/
inductive KeyExpr where
  | word (k : Word)
  | sampled (i : Nat)
  deriving DecidableEq, Repr

/-- One step of the host's program (30_encoding R54, R55; 60_exceptions R92). -/
inductive HostStep where
  /-- `ENCODE 0x<16 hex digits>`: drive the word, let it settle, sample (30_encoding R54, 70_reset R100). -/
  | transaction (w : Word)
  /-- Drive the input port and nothing more (60_exceptions R92). -/
  | drive (w : Word)
  /-- Sample the output of the input that is being driven (60_exceptions R92). -/
  | sample
  /-- Evaluate a list expression, `SORT_BY_KEY` and `SORT_BY_VALUE` among them, and keep it (R55). -/
  | order (l : ListExpr)
  /-- `ASSERT_EQ_ORDER A, B` (30_encoding R55). -/
  | assertEqOrder (a b : ListExpr)
  /-- `LEXCMP k1, k2` (30_encoding R55). -/
  | lexcmp (a b : KeyExpr)
  /-- `UNKEY k` (30_encoding R55). -/
  | unkey (k : KeyExpr)
  /-- Store a key: the 8 bytes of its field, lowest position first (20_memory R35, 60_exceptions R92). -/
  | storeKey (k : KeyExpr)
  /-- Ask the block for a decode, which it does not have (00_scope R5, 60_exceptions R92). -/
  | requestDecode (k : Word)
  /-- Ask the block for a 9-byte key (`ENCODE9`), which is refused (40_encode R76). -/
  | requestNineByteKey (w : Word)
  deriving DecidableEq, Repr

/-- What a host-side step yields (30_encoding R55). -/
inductive HostResult where
  /-- The list a SORT step yields. -/
  | order (l : List Observation)
  /-- Whether the two orderings of an ASSERT_EQ_ORDER agreed. -/
  | check (holds : Bool)
  /-- `<`, `=` or `>` of a LEXCMP. -/
  | comparison (o : Ordering)
  /-- The input word of an UNKEY. -/
  | inputWord (w : Word)
  /-- The stored bytes of a key, lowest position first. -/
  | stored (kb : Vector Byte 8)
  deriving DecidableEq, Repr

/-- The input port and the host agent. Every field is plain data. -/
structure State where
  /-- The word the host drives on `f[63:0]` (10_state R21), `none` while it has driven nothing (70_reset
  R95: an undriven input has no output a model gives; log entry 2). -/
  applied : Option Word
  /-- The host's list `L`: the pairs sampled so far, oldest first (70_reset R100, 95_test_vectors W4). -/
  pairs : List Observation
  /-- What is left of the host's program (70_reset R100). -/
  program : List HostStep
  /-- The model's own record of what the host-side steps have yielded, oldest first (30_encoding R55). -/
  results : List HostResult
  /-- The model's own counter of the free values drawn so far (`Config.freePlace`), which only the place of
  a NaN in SORT_BY_VALUE draws (log entries 11 and 18). -/
  draws : Nat
  deriving DecidableEq, Repr

/-- The start of a run. The block has no state and so no reset value (10_state R30, 70_reset R93, R94);
the host's list is empty (95_test_vectors section 3), it drives nothing yet, and no program is placed
(DESIGN CHOICE, log entries 2 and 3). The counter of free values starts at 0 (DESIGN CHOICE, log entry
18; no statement rests on that number). -/
def State.reset : State where
  applied := none
  pairs := []
  program := []
  results := []
  draws := 0

/-- The block has no fault outcome (60_exceptions R78: no exception for any of the 2^64 inputs; R79, R80,
R82), and a failing host check is a result and not a fault (R85). So nobody raises one: the type has no
constructor. Safe and exact. -/
inductive Fault where
  deriving DecidableEq, Repr

/-- Why a step stops. ENCODE raises none of these; all are on the host's side of the boundary. -/
inductive Refusal where
  /-- An instruction without a meaning. Nobody raises it: ENCODE, the only instruction, has its meaning.
  Safe. -/
  | notModelled (mnemonic : String)
  /-- Raised by `step` when the host's program has no step left: the run has ended (70_reset R100).
  Safe. -/
  | programEnded
  /-- Raised by the host's `sample` when it has driven no input yet: the output is then unspecified and a
  model does not represent it (70_reset R95, 93 U6). Safe. -/
  | inputUndriven
  /-- Raised by the host's request for a decode: the block has no DECODE operation (00_scope R5, 40_encode
  R64). Safe. -/
  | decodeOperation
  /-- Raised by the host's request for a 9-byte key: the legacy variant is refused by name (40_encode
  R76). Safe. -/
  | legacyNineByteVariant
  /-- Raised by a host-side step that names a pair `L` does not have. Safe. -/
  | noSuchPair (i : Nat)
  /-- Raised by a host-side step that names a result that does not exist or is no list. Safe. -/
  | noSuchOrder (i : Nat)
  deriving DecidableEq, Repr

end Sys2Proof.Machine
end

