-- ==== Sys2Proof/Machine/Ops.lean ====
section
/-! DEFINITION. The datapath of the block, its ports over a state, and the named updates of a state.

There is no operation here that takes an exception or returns from one: the block has neither exceptions
nor interrupts, so nothing is saved, no mode changes and no handler exists (60_exceptions R78, R80, R82,
R83). There is none over registers or memory either, because the block has none (10_state R23, R28). -/

namespace Sys2Proof.Machine

/-- The negative path: all 64 bits are complemented (40_encode R58). -/
def negativePath (bits : Word) : Word := ~~~bits

/-- The non-negative path: only bit 63 is flipped (40_encode R59). -/
def nonNegativePath (bits : Word) : Word := bits ^^^ 0x8000000000000000

/-- The key of an input word (40_encode R56): the sign bit alone selects the path (30_encoding R48), also
for zeros, subnormals, infinities and NaNs (40_encode R61 to R63). -/
def encodeKey (bits : Word) : Word :=
  if signBit bits then negativePath bits else nonNegativePath bits

/-- The output port `key[63:0]`: the key of the input that is being driven and of nothing else (10_state
R22). `none` while nothing is driven (70_reset R95). -/
def State.key (s : State) : Option Word := s.applied.map encodeKey

/-- The output port `kb[0..7]`: the byte view of the same wires (10_state R21, R22). -/
def State.keyBytes (s : State) : Option (Vector Byte 8) := s.key.map toBytes

/-- The host drives a word on the input port (60_exceptions R92). -/
def State.drive (s : State) (w : Word) : State := { s with applied := some w }

/-- The host samples the settled key of the input word `w` and appends the pair to its list (70_reset
R100, 95_test_vectors W4). Every sample of the model is settled (70_reset R96, log entry 4). -/
def State.observe (s : State) (w : Word) : State :=
  { s with pairs := s.pairs ++ [⟨w, encodeKey w⟩] }

/-- The host keeps what one of its own steps yielded (30_encoding R55). -/
def State.addResult (s : State) (r : HostResult) : State := { s with results := s.results ++ [r] }

/-- The host has these steps left to do (70_reset R100). -/
def State.withProgram (s : State) (p : List HostStep) : State := { s with program := p }

/-- This many free values have been drawn (log entry 18). -/
def State.withDraws (s : State) (d : Nat) : State := { s with draws := d }

end Sys2Proof.Machine
end

