-- ==== Sys2Proof/Machine/Encode.lean ====
section
/-! DEFINITION. The only instruction family: ENCODE (40_encode R56). -/

namespace Sys2Proof.Machine

/-- ENCODE as one transaction: the host drives the operand's word, it settles, and the host samples the
key (40_encode R56, 70_reset R100). It writes no flag (10_state R25), raises nothing (60_exceptions R78)
and has no other effect (20_memory R37). -/
def execEncode (f : F64In) (s : State) : Host.Outcome State Fault Refusal :=
  .next ((s.drive (operandBits f)).observe (operandBits f))

end Sys2Proof.Machine
end

