-- ==== Sys2Proof/Machine/Value.lean ====
section
/-! DEFINITION. The numeric value of an input pattern (00_scope R18) and its class (30_encoding R53).

ENCODE never evaluates either (R18, 30_encoding R48): they serve the host's SORT_BY_VALUE and the laws of
40_encode. PRESUMED: the spec supplies both from general knowledge of IEEE-754 binary64 and says so (D16;
unsafe, log entry 7). -/

namespace Sys2Proof.Machine

/-- What a binary64 pattern that is not a NaN denotes (00_scope R18): a rational number or an infinity. -/
inductive Value where
  | negInfinity
  | finite (q : Rat)
  | posInfinity
  deriving DecidableEq, Repr

/-- `e = f[62:52]`, read as unsigned (00_scope R18). -/
def exponentOf (w : Word) : Nat := (F64In.ofWord w).exp.toNat

/-- `t = f[51:0]`, read as unsigned (00_scope R18). -/
def fractionOf (w : Word) : Nat := (F64In.ofWord w).frac.toNat

/-- `2^k` for an integer `k`. -/
def twoPower (k : Int) : Rat :=
  match k with
  | .ofNat n => ((2 ^ n : Nat) : Rat)
  | .negSucc n => mkRat 1 (2 ^ (n + 1))

/-- The absolute value of a finite pattern with exponent field `e` and fraction field `t` (00_scope R18):
`2^(e-1023) * (1 + t/2^52)` for `e >= 1`, and `2^(-1022) * (t/2^52)` for `e = 0`. -/
def finiteMagnitude (e t : Nat) : Rat :=
  if e = 0 then twoPower (1 - Config.exponentBias) * mkRat t (2 ^ Config.fractionBits)
  else twoPower (e - Config.exponentBias) * (1 + mkRat t (2 ^ Config.fractionBits))

/-- A NaN pattern: exponent field all ones and fraction not zero (00_scope R18). -/
def isNaN (w : Word) : Bool := exponentOf w == 0x7FF && fractionOf w != 0

/-- `val(f)` (00_scope R18): none for a NaN, which has no value. -/
def val (w : Word) : Option Value :=
  if exponentOf w = 0x7FF then
    if fractionOf w ≠ 0 then none
    else if signBit w then some .negInfinity
    else some .posInfinity
  else if signBit w then some (.finite (-finiteMagnitude (exponentOf w) (fractionOf w)))
  else some (.finite (finiteMagnitude (exponentOf w) (fractionOf w)))

/-- `<` of two values. -/
def Value.less : Value → Value → Bool
  | .negInfinity, .negInfinity => false
  | .negInfinity, _ => true
  | .finite _, .negInfinity => false
  | .finite a, .finite b => decide (a < b)
  | .finite _, .posInfinity => true
  | .posInfinity, _ => false

/-- `a < b` on input patterns: numeric comparison, false wherever a NaN takes part (00_scope R18). -/
def numLess (a b : Word) : Bool :=
  match val a, val b with
  | some x, some y => x.less y
  | _, _ => false

/-- `a == b` on input patterns: numeric equality, so that `+0.0 == -0.0`, and false wherever a NaN takes
part (00_scope R18). -/
def numEqual (a b : Word) : Bool :=
  match val a, val b with
  | some x, some y => x == y
  | _, _ => false

/-- The classes of an input pattern (30_encoding R53). -/
inductive InputClass where
  | zero
  | subnormal
  | normal
  | infinity
  | nan
  deriving DecidableEq, Repr

/-- The class of an input pattern, from its exponent and fraction fields (30_encoding R53). -/
def classOf (w : Word) : InputClass :=
  if exponentOf w = 0 then if fractionOf w = 0 then .zero else .subnormal
  else if exponentOf w = 0x7FF then if fractionOf w = 0 then .infinity else .nan
  else .normal

/-- The rank of an input in the table of 40_encode R68, 1 for the lowest keys. -/
def rankOf (w : Word) : Nat :=
  match signBit w, classOf w with
  | true, .nan => 1
  | true, .infinity => 2
  | true, .normal => 3
  | true, .subnormal => 4
  | true, .zero => 5
  | false, .zero => 6
  | false, .subnormal => 7
  | false, .normal => 8
  | false, .infinity => 9
  | false, .nan => 10

end Sys2Proof.Machine
end

