-- ==== Sys2Proof/Machine/Sort.lean ====
section
/-! DEFINITION. The host's sorting steps (30_encoding R55). Both keep list order where neither pair is
below the other, so both are stable. -/

namespace Sys2Proof.Machine

/-- Put `x` before the first element that is not below it. -/
def insertBy (below : Observation → Observation → Bool) (x : Observation) : List Observation → List Observation
  | [] => [x]
  | y :: ys => if below y x then y :: insertBy below x ys else x :: y :: ys

/-- Ascending insertion sort that keeps the order of elements of which neither is below the other. -/
def sortBy (below : Observation → Observation → Bool) : List Observation → List Observation
  | [] => []
  | x :: xs => insertBy below x (sortBy below xs)

/-- One pair's key bytes are lexicographically below the other's (30_encoding R55, 00_scope R17). -/
def keyBelow (a b : Observation) : Bool := lexLess (toBytes a.key) (toBytes b.key)

/-- One pair's input is numerically below the other's (30_encoding R55, 00_scope R18). -/
def valueBelow (a b : Observation) : Bool := numLess a.input b.input

/-- `SORT_BY_KEY`: ascending by `kb lex<` (30_encoding R55). -/
def sortByKey (l : List Observation) : List Observation := sortBy keyBelow l

/-- The pair's input is a NaN, which has no place in the numeric order (00_scope R18). -/
def Observation.unordered (o : Observation) : Bool := isNaN o.input

/-- Put each of the pairs `xs` at a free position of the list, drawing one free value for each, the first
of them number `draw`. A position beyond the end is the end. -/
def placeFreely (draw : Nat) : List Observation → List Observation → List Observation
  | [], l => l
  | x :: xs, l =>
    placeFreely (draw + 1) xs (l.take (Config.freePlace draw) ++ x :: l.drop (Config.freePlace draw))

/-- `SORT_BY_VALUE`: ascending by `val` (30_encoding R55). The pairs that have a value stand in that order
whatever the list holds besides; where each NaN pair comes to stand among them no rule says, so those
places are free values (00_scope R18; DESIGN CHOICE, log entry 11). -/
def sortByValue (draw : Nat) (l : List Observation) : List Observation :=
  placeFreely draw (l.filter fun o => o.unordered) (sortBy valueBelow (l.filter fun o => !o.unordered))

/-- How many free values `SORT_BY_VALUE` of the list draws: one for each NaN pair. -/
def sortByValueDraws (l : List Observation) : Nat := (l.filter fun o => o.unordered).length

/-- Two orderings name the same inputs in the same order (30_encoding R55, ASSERT_EQ_ORDER). -/
def sameOrder (a b : List Observation) : Bool :=
  a.map (fun o => o.input) == b.map (fun o => o.input)

end Sys2Proof.Machine
end

