-- ==== Sys2Proof/Machine/HostSteps.lean ====
section
/-! DEFINITION. The host's steps (30_encoding R54, R55; 60_exceptions R92). Only a transaction, a drive
and a sample touch the block's ports; the others are the host's own work on sampled keys. -/

namespace Sys2Proof.Machine

/-- The inverse of ENCODE (40_encode R64), as the host's arithmetic `UNKEY` (30_encoding R55). It is no
operation of the block (00_scope R5). -/
def unkey (key : Word) : Word :=
  if classBit key then key ^^^ 0x8000000000000000 else ~~~key

/-- The list a list expression names when `draw` free values have been drawn, and how many have been drawn
after it; or why it names none. -/
def evalList (s : State) (draw : Nat) : ListExpr → Except Refusal (List Observation × Nat)
  | .pairs => .ok (s.pairs, draw)
  | .result i =>
    match s.results[i]? with
    | some (.order l) => .ok (l, draw)
    | _ => .error (.noSuchOrder i)
  | .sortByKey e =>
    match evalList s draw e with
    | .ok (l, d) => .ok (sortByKey l, d)
    | .error r => .error r
  | .sortByValue e =>
    match evalList s draw e with
    | .ok (l, d) => .ok (sortByValue d l, d + sortByValueDraws l)
    | .error r => .error r

/-- The key a key expression names, or why it names none. -/
def evalKey (s : State) : KeyExpr → Except Refusal Word
  | .word k => .ok k
  | .sampled i =>
    match s.pairs[i]? with
    | some o => .ok o.key
    | none => .error (.noSuchPair i)

/-- Sample the output of the input that is being driven; an undriven input has none (70_reset R95). -/
def hostSample (s : State) : Host.Outcome State Fault Refusal :=
  match s.applied with
  | some w => .next (s.observe w)
  | none => .refused .inputUndriven

/-- Evaluate a list expression and keep the list (30_encoding R55). -/
def hostOrder (e : ListExpr) (s : State) : Host.Outcome State Fault Refusal :=
  match evalList s s.draws e with
  | .ok (l, d) => .next ((s.withDraws d).addResult (.order l))
  | .error r => .refused r

/-- The state after a check: the host keeps whether it held, and a host whose check fails goes no further
(60_exceptions R85: the process terminates abnormally; DEDUCED, log entry 10). -/
def afterCheck (holds : Bool) (s : State) : State :=
  if holds then s.addResult (.check true) else (s.addResult (.check false)).withProgram []

/-- `ASSERT_EQ_ORDER` (30_encoding R55). -/
def hostAssertEqOrder (a b : ListExpr) (s : State) : Host.Outcome State Fault Refusal :=
  match evalList s s.draws a with
  | .ok (la, d) =>
    match evalList s d b with
    | .ok (lb, d') => .next (afterCheck (sameOrder la lb) (s.withDraws d'))
    | .error r => .refused r
  | .error r => .refused r

/-- `LEXCMP`: the lexicographic comparison of two keys' bytes (30_encoding R55, 00_scope R17). -/
def hostLexcmp (a b : KeyExpr) (s : State) : Host.Outcome State Fault Refusal :=
  match evalKey s a with
  | .ok ka =>
    match evalKey s b with
    | .ok kb => .next (s.addResult (.comparison (lexCompare (toBytes ka) (toBytes kb))))
    | .error r => .refused r
  | .error r => .refused r

/-- `UNKEY` (30_encoding R55). -/
def hostUnkey (k : KeyExpr) (s : State) : Host.Outcome State Fault Refusal :=
  match evalKey s k with
  | .ok key => .next (s.addResult (.inputWord (unkey key)))
  | .error r => .refused r

/-- Store a key: `kb[0]` at the lowest position of the field (20_memory R35). Where the field lies is the
host's business, so the result is the 8 bytes alone. -/
def hostStoreKey (k : KeyExpr) (s : State) : Host.Outcome State Fault Refusal :=
  match evalKey s k with
  | .ok key => .next (s.addResult (.stored (toBytes key)))
  | .error r => .refused r

/-- One step of the host's program. -/
def runHostStep (h : HostStep) (s : State) : Host.Outcome State Fault Refusal :=
  match h with
  | .transaction w => exec (decode w) s
  | .drive w => .next (s.drive w)
  | .sample => hostSample s
  | .order l => hostOrder l s
  | .assertEqOrder a b => hostAssertEqOrder a b s
  | .lexcmp a b => hostLexcmp a b s
  | .unkey k => hostUnkey k s
  | .storeKey k => hostStoreKey k s
  | .requestDecode _ => .refused .decodeOperation
  | .requestNineByteKey _ => .refused .legacyNineByteVariant

end Sys2Proof.Machine
end

