-- ==== Sys2Proof/Machine/Step.lean ====
section
/-! DEFINITION. One step of a run. The block has no program counter and fetches nothing (10_state R24);
what runs next is the head of the host's program (70_reset R100), and it runs with the rest of the program
left to do. -/

namespace Sys2Proof.Machine

/-- One step: the next step of the host's program. A run ends after its last step (70_reset R100). -/
def step (s : State) : Host.Outcome State Fault Refusal :=
  match s.program with
  | [] => .refused .programEnded
  | h :: rest => runHostStep h (s.withProgram rest)

/-- The state whose very next step is the transaction with this input word: `nbits` bits of value `w`, the
bits above them 0. A program is given to the host from outside (log entry 3), so this stands for putting
the transaction in front of what the host has still to do. -/
def State.withFetchWord (s : State) (nbits w : Nat) : State :=
  s.withProgram (.transaction (BitVec.ofNat 64 (w % 2 ^ nbits)) :: s.program)

end Sys2Proof.Machine
end

