-- ==== Sys2Proof/Safety.lean ====
section
/-! DEFINITION. What counts as a sound run, in the terms the claims use. -/

namespace Sys2Proof.Machine

/-- A pair holds the key ENCODE gives its input (70_reset R100: an observation is `(f, ENCODE(f))`). -/
def Observation.truthful (o : Observation) : Prop := o.key = encodeKey o.input

/-- What the host holds is sound: every pair of its list is an observation of the block (70_reset R100),
every list its sorting steps kept names only pairs of that list (30_encoding R55), and no key was sampled
before an input was driven (70_reset R95). -/
def State.Sound (s : State) : Prop :=
  (∀ o ∈ s.pairs, o.truthful) ∧
  (∀ l, HostResult.order l ∈ s.results → ∀ o ∈ l, o ∈ s.pairs) ∧
  (s.applied = none → s.pairs = [])

/-- The lowest and the highest key of each rank of the table of 40_encode R68. -/
def rankKeys : Nat → Word × Word
  | 1 => (0x0000000000000000, 0x000FFFFFFFFFFFFE)
  | 2 => (0x000FFFFFFFFFFFFF, 0x000FFFFFFFFFFFFF)
  | 3 => (0x0010000000000000, 0x7FEFFFFFFFFFFFFF)
  | 4 => (0x7FF0000000000000, 0x7FFFFFFFFFFFFFFE)
  | 5 => (0x7FFFFFFFFFFFFFFF, 0x7FFFFFFFFFFFFFFF)
  | 6 => (0x8000000000000000, 0x8000000000000000)
  | 7 => (0x8000000000000001, 0x800FFFFFFFFFFFFF)
  | 8 => (0x8010000000000000, 0xFFEFFFFFFFFFFFFF)
  | 9 => (0xFFF0000000000000, 0xFFF0000000000000)
  | _ => (0xFFF0000000000001, 0xFFFFFFFFFFFFFFFF)

end Sys2Proof.Machine
end

