-- ==== Sys2Proof/Certificates/Slice0/Obligations.lean ====
section
/-! DEFINITION. The statements for the provers. Each says which rule of spec/ it formalises; one that rests
on a choice of the model, or on general knowledge the spec marks as such, names it. -/

open Sys2Proof Sys2Proof.Machine

/-! ## Encoding -/

/-- 30_encoding R47: there is no opcode field, the row's mask and match are 0 and select every word, so
every 64-bit input decodes to ENCODE with that word as its operand. 30_encoding R52 gives no other length,
and that the decoder refuses one by name is the model's (DEDUCED, log entry 16). -/
def Obligations.EveryInputWordDecodesToEncode : Prop :=
  encodeRowMask = 0 ∧ encodeRowMatch = 0 ∧
  (∀ w : Word, encodeRowSelects w = true ∧ decodeInput 64 w.toNat = .ok (.encode (F64In.ofWord w))) ∧
  (∀ i : Instr, ∃ f, i = .encode f) ∧
  (∀ n w : Nat, n ≠ 64 → decodeInput n w = .error (.notSixtyFourBits n))

/-- 30_encoding R45 (and 00_scope R12): the places of the sign, exponent and fraction bits in the input
word, in both directions. -/
def Obligations.FieldsStandWhereF64InPutsThem : Prop :=
  (∀ (f : F64In) (j : Nat),
    f.word.getLsbD j =
      if j < 52 then f.frac.getLsbD j
      else if j < 63 then f.exp.getLsbD (j - 52)
      else f.sign.getLsbD (j - 63)) ∧
  (∀ w : Word,
    (∀ j, (F64In.ofWord w).sign.getLsbD j = (decide (j < 1) && w.getLsbD (63 + j))) ∧
    (∀ j, (F64In.ofWord w).exp.getLsbD j = (decide (j < 11) && w.getLsbD (52 + j))) ∧
    (∀ j, (F64In.ofWord w).frac.getLsbD j = (decide (j < 52) && w.getLsbD j)))

/-- Decoding and encoding agree, for every instruction and every operand, and in both directions: what the
decoder accepts is the word of the instruction it gives (30_encoding R45, R47, R52, R54). -/
def Obligations.DecodeAndEncodeAgree : Prop :=
  (∀ i : Instr, i.wellFormed = true →
    decode (encodeInstr i) = i ∧ decodeInput 64 (encodeInstr i).toNat = .ok i ∧
    decodeTableWord 64 (encodeInstr i).toNat = some i) ∧
  (∀ w : Word, encodeInstr (decode w) = w) ∧
  (∀ n w i, decodeInput n w = .ok i → n = 64 ∧ (encodeInstr i).toNat = w) ∧
  (∀ i j : Instr, encodeInstr i = encodeInstr j → i = j)

/-- Words of 95_test_vectors V4, V9 and V28, cut into their F64IN fields by hand (30_encoding R45). -/
def Obligations.KnownWordsDecode : Prop :=
  decode 0xBFF0000000000000 = .encode ⟨1, 0x3FF, 0⟩ ∧
  decode 0x40091EB851EB851F = .encode ⟨0, 0x400, 0x91EB851EB851F⟩ ∧
  decode 0xFFFFFFFFFFFFFFFF = .encode ⟨1, 0x7FF, 0xFFFFFFFFFFFFF⟩

/-- A step whose program starts with the transaction of a word runs the instruction the word decodes to, on
the state with the rest of the program left to do. The step adds nothing else (70_reset R100; 10_state R24:
there is no program counter to advance). -/
def Obligations.StepRunsTheDecodedInstruction : Prop :=
  ∀ (s : State) (w : Word) (rest : List HostStep) (i : Instr),
    s.program = .transaction w :: rest → decode w = i →
    step s = exec i { s with program := rest }

/-! ## ENCODE: its effect, its two paths, its frame -/

/-- 40_encode R56: ENCODE completes from every state and for every operand, with the pair of the input and
its key sampled, the input left on the port, the key on both output views, and nothing else changed; the
extreme keys and the worked example of the rule. Its corner cases R61 to R63 are statements of their own. -/
def Obligations.EncodeGivesTheKey : Prop :=
  (∀ (f : F64In) (s : State),
    ∃ key : Word,
      key = (if f.word[63] = true then ~~~f.word else f.word ^^^ 0x8000000000000000) ∧
      exec (.encode f) s = .next
        { applied := some f.word, pairs := s.pairs ++ [⟨f.word, key⟩],
          program := s.program, results := s.results, draws := s.draws } ∧
      ∀ t, exec (.encode f) s = .next t →
        t.key = some key ∧
        ∃ kb, t.keyBytes = some kb ∧ ∀ i : Fin 8, kb[i] = key.extractLsb' (56 - 8 * i.val) 8) ∧
  encodeKey 0xFFFFFFFFFFFFFFFF = 0x0000000000000000 ∧
  encodeKey 0x7FFFFFFFFFFFFFFF = 0xFFFFFFFFFFFFFFFF ∧
  encodeKey 0x40091EB851EB851F = 0xC0091EB851EB851F ∧
  toBytes (encodeKey 0x40091EB851EB851F) = #v[0xC0, 0x09, 0x1E, 0xB8, 0x51, 0xEB, 0x85, 0x1F]

/-- 40_encode R58: an ENCODE of an input with sign 1 completes, and its key is the complement of all 64
bits, with bit 63 then 0 and bits 62..0 complemented; the rule's example. -/
def Obligations.NegativePathComplementsAllBits : Prop :=
  (∀ (f : F64In) (s : State), f.sign = 1 →
    exec (.encode f) s = .next
      { s with applied := some f.word, pairs := s.pairs ++ [⟨f.word, ~~~f.word⟩] } ∧
    classBit (~~~f.word) = false ∧ orderField (~~~f.word) = ~~~(orderField f.word)) ∧
  encodeKey 0xBFF0000000000000 = 0x400FFFFFFFFFFFFF

/-- 40_encode R59: an ENCODE of an input with sign 0 completes, and its key is the input with bit 63
flipped, so that bit 63 is 1 and bits 62..0 are the input's; the rule's example. -/
def Obligations.NonNegativePathFlipsBit63 : Prop :=
  (∀ (f : F64In) (s : State), f.sign = 0 →
    exec (.encode f) s = .next
      { s with applied := some f.word,
               pairs := s.pairs ++ [⟨f.word, f.word ^^^ 0x8000000000000000⟩] } ∧
    classBit (f.word ^^^ 0x8000000000000000) = true ∧
    orderField (f.word ^^^ 0x8000000000000000) = orderField f.word) ∧
  encodeKey 0x3FF0000000000000 = 0xBFF0000000000000

/-- The frame of ENCODE (20_memory R37, 10_state R25): what the host still has to do and what its own steps
yielded are unchanged, the list only grows by one pair, and the only port it changes is the input. There
are no registers, flags and memory that could change (10_state R23, R25, R28). -/
def Obligations.EncodeFrame : Prop :=
  ∀ (f : F64In) (s t : State), exec (.encode f) s = .next t →
    t.program = s.program ∧ t.results = s.results ∧ t.draws = s.draws ∧ t.applied = some f.word ∧
    t.pairs.length = s.pairs.length + 1 ∧ s.pairs <+: t.pairs

/-- 30_encoding R48: the sign bit selects the path and no other bit takes part, so two inputs that agree on
bit 63 have the same bits inverted. -/
def Obligations.SignBitAloneSelectsThePath : Prop :=
  (∀ w : Word, w[63] = true → encodeKey w = ~~~w) ∧
  (∀ w : Word, w[63] = false → encodeKey w = w ^^^ (1 <<< 63)) ∧
  (∀ v w : Word, v[63] = w[63] → encodeKey v ^^^ v = encodeKey w ^^^ w)

/-- 30_encoding R49: ENCODE is one XOR with a mask built from the sign bit, and so bit by bit. -/
def Obligations.EncodeIsXorWithTheSignMask : Prop :=
  (∀ w : Word, encodeKey w = w ^^^ (BitVec.replicate 64 (BitVec.ofBool w[63]) ||| 0x8000000000000000)) ∧
  (∀ w : Word, w[63] = true →
    BitVec.replicate 64 (BitVec.ofBool w[63]) ||| 0x8000000000000000 = (0xFFFFFFFFFFFFFFFF : Word)) ∧
  (∀ w : Word, w[63] = false →
    BitVec.replicate 64 (BitVec.ofBool w[63]) ||| 0x8000000000000000 = (0x8000000000000000 : Word)) ∧
  (∀ w : Word, (encodeKey w)[63] = !w[63]) ∧
  (∀ (w : Word) (j : Nat), j < 63 → (encodeKey w).getLsbD j = (w.getLsbD j ^^ w[63]))

/-- 30_encoding R46: the class bit, the order field and the bytes of a key. -/
def Obligations.KeyFormat : Prop :=
  ∀ w : Word,
    classBit (encodeKey w) = !w[63] ∧
    (w[63] = false → orderField (encodeKey w) = w.extractLsb' 0 63) ∧
    (w[63] = true → orderField (encodeKey w) = ~~~(w.extractLsb' 0 63)) ∧
    ∀ i : Fin 8, (toBytes (encodeKey w))[i] = (encodeKey w).extractLsb' (56 - 8 * i.val) 8

/-- 40_encode R60: the closed form of the key, with its two ranges. -/
def Obligations.ClosedForm : Prop :=
  ∀ w : Word,
    (w[63] = false →
      (encodeKey w).toNat = 2 ^ 63 + (w.extractLsb' 0 63).toNat ∧
      0x8000000000000000 ≤ encodeKey w ∧ encodeKey w ≤ 0xFFFFFFFFFFFFFFFF) ∧
    (w[63] = true →
      ((encodeKey w).toNat : Int) = 2 ^ 63 - 1 - (w.extractLsb' 0 63).toNat ∧
      0x0000000000000000 ≤ encodeKey w ∧ encodeKey w ≤ 0x7FFFFFFFFFFFFFFF)

/-! ## Bytes -/

/-- 20_memory R31: the bytes of a key, most significant first; the rule's worked example. -/
def Obligations.BytesAreMostSignificantFirst : Prop :=
  (∀ (k : Word) (i : Fin 8), (toBytes k)[i] = k.extractLsb' (56 - 8 * i.val) 8) ∧
  (∀ k : Word, (toBytes k)[0] = k.extractLsb' 56 8 ∧ (toBytes k)[7] = k.extractLsb' 0 8) ∧
  toBytes 0xC0091EB851EB851F = #v[0xC0, 0x09, 0x1E, 0xB8, 0x51, 0xEB, 0x85, 0x1F]

/-- 00_scope R17: one 8-byte sequence is lexicographically below another when at the smallest index where
they differ its byte is the smaller; without such an index they are equal and neither is below. -/
def Obligations.LexicographicOrderIsTheFirstDifference : Prop :=
  (∀ a b : Vector Byte 8,
    lexLess a b = true ↔ ∃ i : Fin 8, (∀ j : Fin 8, j < i → a[j] = b[j]) ∧ a[i].toNat < b[i].toNat) ∧
  (∀ a b : Vector Byte 8, (∀ i : Fin 8, a[i] = b[i]) →
    a = b ∧ lexLess a b = false ∧ lexLess b a = false)

/-- 20_memory R33: comparing the bytes lexicographically is comparing the keys as unsigned integers. -/
def Obligations.LexicographicOrderIsUnsignedOrder : Prop :=
  ∀ k1 k2 : Word,
    (lexLess (toBytes k1) (toBytes k2) = true ↔ k1.toNat < k2.toNat) ∧
    (toBytes k1 = toBytes k2 ↔ k1 = k2)

/-! ## The inputs the source leaves open -/

/-- 40_encode R61: infinities and NaNs go through the same two paths, complete, and have these keys; NaNs
with sign 1 lie below minus infinity, those with sign 0 above plus infinity. -/
def Obligations.InfinityAndNaNKeys : Prop :=
  encodeKey 0xFFF0000000000000 = 0x000FFFFFFFFFFFFF ∧
  encodeKey 0x7FF0000000000000 = 0xFFF0000000000000 ∧
  (∀ w : Word, 0xFFF0000000000001 ≤ w → encodeKey w = ~~~w ∧ encodeKey w ≤ 0x000FFFFFFFFFFFFE ∧
    encodeKey w < encodeKey 0xFFF0000000000000) ∧
  (∀ w : Word, 0x7FF0000000000001 ≤ w → w ≤ 0x7FFFFFFFFFFFFFFF →
    encodeKey w = w ^^^ 0x8000000000000000 ∧ 0xFFF0000000000001 ≤ encodeKey w ∧
    encodeKey 0x7FF0000000000000 < encodeKey w) ∧
  (∀ (w : Word) (s : State),
    (0xFFF0000000000000 ≤ w ∨ (0x7FF0000000000000 ≤ w ∧ w ≤ 0x7FFFFFFFFFFFFFFF)) →
    exec (decode w) s = .next
      { s with applied := some w, pairs := s.pairs ++ [⟨w, if w[63] then ~~~w else w ^^^ 0x8000000000000000⟩] })

/-- 40_encode R62: the two zeros keep distinct, adjacent keys, minus zero below plus zero. -/
def Obligations.SignedZeroKeys : Prop :=
  encodeKey 0x0000000000000000 = 0x8000000000000000 ∧
  encodeKey 0x8000000000000000 = 0x7FFFFFFFFFFFFFFF ∧
  encodeKey 0x8000000000000000 < encodeKey 0x0000000000000000 ∧
  (encodeKey 0x0000000000000000).toNat = (encodeKey 0x8000000000000000).toNat + 1

/-- 40_encode R63: subnormals take the same two paths, and their keys lie in the rule's ranges, between the
keys of the zeros and of the normals nearest zero. Which patterns are subnormal is 30_encoding R53's, which
the spec marks as general knowledge (log entry 7). -/
def Obligations.SubnormalKeys : Prop :=
  (∀ w : Word, classOf w = .subnormal → w[63] = false →
    encodeKey w = w ^^^ 0x8000000000000000 ∧
    0x8000000000000001 ≤ encodeKey w ∧ encodeKey w ≤ 0x800FFFFFFFFFFFFF) ∧
  (∀ w : Word, classOf w = .subnormal → w[63] = true →
    encodeKey w = ~~~w ∧ 0x7FF0000000000000 ≤ encodeKey w ∧ encodeKey w ≤ 0x7FFFFFFFFFFFFFFE) ∧
  encodeKey 0x0000000000000000 = 0x8000000000000000 ∧
  encodeKey 0x0010000000000000 = 0x8010000000000000 ∧
  encodeKey 0x8000000000000000 = 0x7FFFFFFFFFFFFFFF ∧
  encodeKey 0x8010000000000000 = 0x7FEFFFFFFFFFFFFF

/-! ## The laws of 40_encode section 4 -/

/-- 40_encode R64: ENCODE is a bijection on all 2^64 words, and its inverse is the one the rule gives; the
block implements no decode. -/
def Obligations.EncodeIsABijection : Prop :=
  (∀ k : Word, k[63] = true → unkey k = k ^^^ 0x8000000000000000) ∧
  (∀ k : Word, k[63] = false → unkey k = ~~~k) ∧
  (∀ w : Word, unkey (encodeKey w) = w) ∧
  (∀ k : Word, encodeKey (unkey k) = k) ∧
  Function.Bijective encodeKey ∧
  (∀ (s : State) (k : Word), runHostStep (.requestDecode k) s = .refused .decodeOperation)

/-- 40_encode R65: every input with sign 1 has a key below every input with sign 0, and every numerically
negative input has key bytes below every numerically non-negative one, minus zero among them. The numeric
half rests on the value formula the spec marks as general knowledge (00_scope R18, log entry 7). -/
def Obligations.SignSeparation : Prop :=
  (∀ a b : Word, a[63] = true → b[63] = false →
    encodeKey a < encodeKey b ∧ classBit (encodeKey a) = false ∧ classBit (encodeKey b) = true) ∧
  (∀ a b : Word, numLess a 0 = true → (numLess 0 b = true ∨ numEqual b 0 = true) →
    lexLess (toBytes (encodeKey a)) (toBytes (encodeKey b)) = true) ∧
  (∀ a : Word, a[63] = true → encodeKey a ≤ encodeKey 0x8000000000000000)

/-- 40_encode R66: order preservation as this hardware has it, over all patterns that are not NaN,
infinities included. "Numeric value" is 00_scope R18's, which the spec marks as general knowledge (log
entry 7). -/
def Obligations.OrderPreservation : Prop :=
  ∀ a b : Word, isNaN a = false → isNaN b = false →
    (numLess a b = true →
      encodeKey a < encodeKey b ∧ lexLess (toBytes (encodeKey a)) (toBytes (encodeKey b)) = true) ∧
    (encodeKey a < encodeKey b →
      numLess a b = true ∨
      (numEqual a b = true ∧ a = 0x8000000000000000 ∧ b = 0x0000000000000000))

/-- 40_encode R67: keys are equal exactly for equal patterns, and numerically equal patterns have equal
keys but for the two zeros (values as in 00_scope R18, log entry 7). -/
def Obligations.EqualityOfKeys : Prop :=
  (∀ a b : Word, encodeKey a = encodeKey b ↔ a = b) ∧
  (∀ a b : Word, numEqual a b = true →
    encodeKey a = encodeKey b ∨
    (a = 0x0000000000000000 ∧ b = 0x8000000000000000) ∨
    (a = 0x8000000000000000 ∧ b = 0x0000000000000000))

/-- 40_encode R68: an input is of a rank exactly when its key lies in that rank's range; the ranges tile
the 64-bit keys without gap or overlap; and the order inside the two ranks of NaNs. The classes are
30_encoding R53's, which the spec marks as general knowledge (log entry 7). -/
def Obligations.TotalOrderByRanks : Prop :=
  (∀ (w : Word) (r : Nat), 1 ≤ r → r ≤ 10 →
    (rankOf w = r ↔ (rankKeys r).1 ≤ encodeKey w ∧ encodeKey w ≤ (rankKeys r).2)) ∧
  (rankKeys 1).1 = 0x0000000000000000 ∧ (rankKeys 10).2 = 0xFFFFFFFFFFFFFFFF ∧
  (∀ r : Nat, 1 ≤ r → r < 10 → (rankKeys r).2.toNat + 1 = (rankKeys (r + 1)).1.toNat) ∧
  (∀ v w : Word, rankOf v < rankOf w → encodeKey v < encodeKey w) ∧
  (∀ v w : Word, rankOf v = 1 → rankOf w = 1 → fractionOf w < fractionOf v → encodeKey v < encodeKey w) ∧
  (∀ v w : Word, rankOf v = 10 → rankOf w = 10 → fractionOf v < fractionOf w → encodeKey v < encodeKey w) ∧
  (∀ v w : Word, rankOf v ∈ [3, 4, 7, 8] → rankOf w = rankOf v →
    (numLess v w = true ↔ encodeKey v < encodeKey w))

/-- 40_encode R69: the same key for the same input every time, whatever happened before, and always
exactly 8 bytes, for every one of the 2^64 inputs. -/
def Obligations.EncodeIsDeterministicAndOfFixedWidth : Prop :=
  ∀ (w : Word) (s1 s2 : State),
    ∃ t1 t2 : State, exec (decode w) s1 = .next t1 ∧ exec (decode w) s2 = .next t2 ∧
      t1.key = t2.key ∧ t1.keyBytes = t2.keyBytes ∧
      t1.pairs.getLast? = t2.pairs.getLast? ∧
      ∃ kb : Vector Byte 8, t1.keyBytes = some kb ∧ kb.toList.length = 8

/-- An input and its complement have keys that differ in bit 63 only (95_test_vectors section 2.1, V31 and
V32). -/
def Obligations.ComplementaryInputsDifferInBit63 : Prop :=
  ∀ w : Word, encodeKey (~~~w) = encodeKey w ^^^ 0x8000000000000000

/-! ## Values and classes -/

/-- 00_scope R18, the value formula the spec marks as general knowledge (log entry 7): the value of every
pattern, in terms of integer powers of 2; the two zeros compare equal; a NaN compares neither less, equal
nor greater than anything. -/
def Obligations.ValueOfAPattern : Prop :=
  (∀ w : Word, exponentOf w = 0x7FF → fractionOf w ≠ 0 → val w = none) ∧
  (∀ w : Word, exponentOf w = 0x7FF → fractionOf w = 0 →
    val w = some (if w[63] then .negInfinity else .posInfinity)) ∧
  (∀ w : Word, 1 ≤ exponentOf w → exponentOf w ≤ 0x7FE →
    val w = some (.finite ((if w[63] then -1 else 1) *
      (2 : Rat) ^ ((exponentOf w : Int) - 1023) * (1 + (fractionOf w : Rat) / 2 ^ 52)))) ∧
  (∀ w : Word, exponentOf w = 0 →
    val w = some (.finite ((if w[63] then -1 else 1) *
      (2 : Rat) ^ (-1022 : Int) * ((fractionOf w : Rat) / 2 ^ 52)))) ∧
  numEqual 0x0000000000000000 0x8000000000000000 = true ∧
  (∀ a b : Word, isNaN a = true →
    numLess a b = false ∧ numLess b a = false ∧ numEqual a b = false ∧ numEqual b a = false)

/-- 30_encoding R53, the classes the spec marks as general knowledge (log entry 7): the ranges of the
patterns of each class with sign 0; those with sign 1 are the same ranges with bit 63 set. -/
def Obligations.ClassesAreRangesOfPatterns : Prop :=
  (∀ w : Word, w[63] = false →
    (classOf w = .zero ↔ w = 0x0000000000000000) ∧
    (classOf w = .subnormal ↔ 0x0000000000000001 ≤ w ∧ w ≤ 0x000FFFFFFFFFFFFF) ∧
    (classOf w = .normal ↔ 0x0010000000000000 ≤ w ∧ w ≤ 0x7FEFFFFFFFFFFFFF) ∧
    (classOf w = .infinity ↔ w = 0x7FF0000000000000) ∧
    (classOf w = .nan ↔ 0x7FF0000000000001 ≤ w ∧ w ≤ 0x7FFFFFFFFFFFFFFF)) ∧
  (∀ w : Word, classOf (w ^^^ 0x8000000000000000) = classOf w) ∧
  (∀ w : Word, classOf w = .nan ↔ isNaN w = true)

/-! ## Ports, samples, absence of faults -/

/-- 10_state R22: the output is a function of the current input alone, on both views. -/
def Obligations.OutputIsAFunctionOfTheInput : Prop :=
  (∀ (s : State) (w : Word), s.applied = some w →
    s.key = some (encodeKey w) ∧
    ∃ kb, s.keyBytes = some kb ∧ ∀ i : Fin 8, kb[i] = (encodeKey w).extractLsb' (56 - 8 * i.val) 8) ∧
  (∀ s t : State, s.applied = t.applied → s.key = t.key ∧ s.keyBytes = t.keyBytes)

/-- 20_memory R37: applying ENCODE to the same input again gives the same key and changes nothing else, and
reading a port has no side effect on any port. -/
def Obligations.EncodeIsRepeatable : Prop :=
  (∀ (f : F64In) (s : State), ∃ t u : State,
    exec (.encode f) s = .next t ∧ exec (.encode f) t = .next u ∧
    u.key = t.key ∧ u.applied = t.applied ∧ u.program = t.program ∧ u.results = t.results ∧
    u.draws = t.draws ∧
    ∃ o : Observation, t.pairs = s.pairs ++ [o] ∧ u.pairs = s.pairs ++ [o, o]) ∧
  (∀ s t : State, hostSample s = .next t →
    t.applied = s.applied ∧ t.key = s.key ∧ t.keyBytes = s.keyBytes ∧
    t.program = s.program ∧ t.results = s.results ∧ t.draws = s.draws)

/-- Successive transactions are independent (70_reset R98): the second key is the key of its own input,
whatever the first input was. -/
def Obligations.SuccessiveTransactionsAreIndependent : Prop :=
  ∀ (v w : Word) (s : State), ∃ t u : State,
    exec (decode v) s = .next t ∧ exec (decode w) t = .next u ∧
    u.pairs = s.pairs ++ [⟨v, encodeKey v⟩, ⟨w, encodeKey w⟩] ∧ u.key = some (encodeKey w)

/-- 60_exceptions R78: ENCODE raises no exception for any of the 2^64 inputs, and a step has no fault
outcome in any state. -/
def Obligations.NothingEverFaults : Prop :=
  (∀ (w : Word) (s : State), ∃ t, exec (decode w) s = .next t) ∧
  (∀ (s : State) (r : Fault), step s ≠ .fault r)

/-- A run of the block is one transaction (70_reset R100): drive, then sample, with the pair `(f,
ENCODE(f))` observed. A host that drives and then samples sees what a transaction sees (60_exceptions
R92); driving alone changes the input port and nothing else. That a sample right after a drive gives the
key of the new word is the model's: 70_reset R96 puts the settling time between the two, and every sample of
the model is a settled one (DESIGN CHOICE, unsafe for a host that samples early, log entry 4). -/
def Obligations.TransactionIsDriveThenSample : Prop :=
  (∀ (w : Word) (s : State), runHostStep (.drive w) s = .next { s with applied := some w }) ∧
  (∀ (w : Word) (s : State), s.applied = some w →
    runHostStep .sample s = .next { s with pairs := s.pairs ++ [⟨w, encodeKey w⟩] }) ∧
  (∀ (w : Word) (s t : State), runHostStep (.drive w) s = .next t →
    runHostStep .sample t = runHostStep (.transaction w) s)

/-- A sample of an input the host has not driven is refused: its output is unspecified and a model does not
represent it (70_reset R95; DEDUCED from 93 U6, log entry 2). -/
def Obligations.UndrivenInputIsNotSampled : Prop :=
  ∀ s : State, s.applied = none →
    s.key = none ∧ s.keyBytes = none ∧ runHostStep .sample s = .refused .inputUndriven

/-- Any request for a 9-byte key is refused by name, and no instruction of the block stands for it
(40_encode R76, 95_test_vectors P5); a request for a decode is refused too (00_scope R5, 40_encode R64,
60_exceptions R92). -/
def Obligations.FormsTheBlockLacksAreRefused : Prop :=
  (∀ (s : State) (w : Word) (rest : List HostStep), s.program = .requestNineByteKey w :: rest →
    step s = .refused .legacyNineByteVariant) ∧
  (∀ (s : State) (k : Word) (rest : List HostStep), s.program = .requestDecode k :: rest →
    step s = .refused .decodeOperation)

/-! ## The host's steps -/

/-- SORT_BY_KEY of 30_encoding R55: the same pairs, ascending by key (as bytes and as unsigned integers),
pairs with equal keys in list order. -/
def Obligations.SortByKeySortsStably : Prop :=
  ∀ l : List Observation,
    (sortByKey l).Perm l ∧
    (sortByKey l).Pairwise (fun a b => a.key.toNat ≤ b.key.toNat) ∧
    ∀ k : Word, (sortByKey l).filter (fun o => o.key == k) = l.filter (fun o => o.key == k)

/-- SORT_BY_VALUE of 30_encoding R55, for every list: the same pairs, those that have a value ascending by
it, pairs of equal value in list order. Where the NaN pairs come to stand, which have no value (00_scope
R18), is a free value (DESIGN CHOICE, log entry 11), whatever its draws are; a list without one leaves
nothing free. Values are general knowledge (log entry 7). -/
def Obligations.SortByValueSortsStably : Prop :=
  ∀ (draw : Nat) (l : List Observation),
    (sortByValue draw l).Perm l ∧
    ((sortByValue draw l).filter (fun o => !isNaN o.input)).Pairwise
      (fun a b => numLess a.input b.input = true ∨ numEqual a.input b.input = true) ∧
    (∀ x : Word, (sortByValue draw l).filter (fun o => numEqual o.input x) =
      l.filter (fun o => numEqual o.input x)) ∧
    ((∀ o ∈ l, isNaN o.input = false) → ∀ draw', sortByValue draw' l = sortByValue draw l)

/-- The source's sort-order check cannot fail on lists of true observations without a NaN that do not hold
both zeros (95_test_vectors W4; 40_encode R66): sorting by key and sorting by value give one order. -/
def Obligations.SortingByKeyAndByValueAgree : Prop :=
  ∀ (draw : Nat) (l : List Observation),
    (∀ o ∈ l, o.key = encodeKey o.input) →
    (∀ o ∈ l, isNaN o.input = false) →
    ¬ ((∃ o ∈ l, o.input = 0x0000000000000000) ∧ (∃ o ∈ l, o.input = 0x8000000000000000)) →
    sortByKey l = sortByValue draw l ∧ sameOrder (sortByKey l) (sortByValue draw l) = true

/-- What the other host steps of 30_encoding R55 and the key store of 20_memory R35 yield, for every form of
their operands. The operand forms and the list of results that each yield is appended to are the model's
(DESIGN CHOICE, log entry 9). That the program of a host ends where its check fails is read from
60_exceptions R85 (DEDUCED, log entry 10). SORT_BY_VALUE answers with NaNs too, whose places are free values
(DESIGN CHOICE, log entry 11). -/
def Obligations.HostStepsYieldWhatTheirRulesSay : Prop :=
  (∀ (s : State) (a b : KeyExpr) (k1 k2 : Word), evalKey s a = .ok k1 → evalKey s b = .ok k2 →
    runHostStep (.lexcmp a b) s = .next { s with results := s.results ++
      [.comparison (if k1.toNat < k2.toNat then .lt else if k1 = k2 then .eq else .gt)] }) ∧
  (∀ (s : State) (a : KeyExpr) (w : Word), evalKey s a = .ok (encodeKey w) →
    runHostStep (.unkey a) s = .next { s with results := s.results ++ [.inputWord w] }) ∧
  (∀ (s : State) (a : KeyExpr) (k : Word), evalKey s a = .ok k →
    runHostStep (.storeKey a) s = .next { s with results := s.results ++ [.stored (toBytes k)] }) ∧
  (∀ s : State, runHostStep (.order (.sortByKey .pairs)) s =
    .next { s with results := s.results ++ [.order (sortByKey s.pairs)] }) ∧
  (∀ s : State, runHostStep (.order (.sortByValue .pairs)) s = .next
    { s with results := s.results ++ [.order (sortByValue s.draws s.pairs)],
             draws := s.draws + (s.pairs.filter fun o => isNaN o.input).length }) ∧
  (∀ (s : State) (a : ListExpr) (l : List Observation) (d : Nat), evalList s s.draws a = .ok (l, d) →
    runHostStep (.order a) s = .next { s with results := s.results ++ [.order l], draws := d }) ∧
  (∀ (s : State) (a b : ListExpr) (la lb : List Observation) (d d' : Nat),
    evalList s s.draws a = .ok (la, d) → evalList s d b = .ok (lb, d') →
    runHostStep (.assertEqOrder a b) s = .next
      (if la.map (fun o => o.input) = lb.map (fun o => o.input)
       then { s with results := s.results ++ [.check true], draws := d' }
       else { s with results := s.results ++ [.check false], program := [], draws := d' }))

/-- What each operand form of a host step names: a written key, the key of a sampled pair, the list `L`, the
list an earlier sort yielded, and the two sorts of any of these (30_encoding R55, 95_test_vectors W4, P1,
P2). The forms, and the refusal of a reference to nothing, are the model's (DESIGN CHOICE, log entry 9). -/
def Obligations.HostOperandFormsNameWhatTheySay : Prop :=
  (∀ (s : State) (k : Word), evalKey s (.word k) = .ok k) ∧
  (∀ (s : State) (i : Nat) (o : Observation), s.pairs[i]? = some o → evalKey s (.sampled i) = .ok o.key) ∧
  (∀ (s : State) (i : Nat), s.pairs.length ≤ i → evalKey s (.sampled i) = .error (.noSuchPair i)) ∧
  (∀ (s : State) (d : Nat), evalList s d .pairs = .ok (s.pairs, d)) ∧
  (∀ (s : State) (d i : Nat) (l : List Observation), s.results[i]? = some (.order l) →
    evalList s d (.result i) = .ok (l, d)) ∧
  (∀ (s : State) (d i : Nat), s.results.length ≤ i →
    evalList s d (.result i) = .error (.noSuchOrder i)) ∧
  (∀ (s : State) (d d' : Nat) (e : ListExpr) (l : List Observation), evalList s d e = .ok (l, d') →
    evalList s d (.sortByKey e) = .ok (sortByKey l, d') ∧
    evalList s d (.sortByValue e) =
      .ok (sortByValue d' l, d' + (l.filter fun o => isNaN o.input).length))

/-! ## Whole runs -/

/-- Every step keeps what the host holds sound: its pairs are true observations of the block, its sorted
lists name only them, and it has sampled nothing before it drove an input (70_reset R100, R95; 30_encoding
R55). -/
def Obligations.StepKeepsTheHostsDataSound : Prop :=
  ∀ s t : State, s.Sound → step s = .next t → t.Sound

/-- The invariant holds at reset. -/
def Obligations.ResetIsSound : Prop := State.reset.Sound

/-- Every step uses up at least one step of the finite program and adds none (70_reset R100). The host's
list and results only grow, by at most one record: that each yield is appended to a list of results is the
model's (DESIGN CHOICE, log entry 9). That a failing check leaves no step at all is read from 60_exceptions
R85 (DEDUCED, log entry 10). -/
def Obligations.StepsUseUpTheProgram : Prop :=
  ∀ s t : State, step s = .next t →
    t.program <:+ s.program ∧ t.program.length < s.program.length ∧
    s.pairs <+: t.pairs ∧ s.results <+: t.results ∧
    (t.pairs.length + t.results.length ≤ s.pairs.length + s.results.length + 1)

/-- After reset the block behaves exactly as at any other time (70_reset R93): a first transaction gives
the key of its input. The rest of the state is what the model places at reset (log entries 2 and 3). -/
def Obligations.FirstTransactionAfterReset : Prop :=
  ∀ w : Word, step (State.reset.withFetchWord 64 w.toNat) = .next
    { applied := some w, pairs := [⟨w, encodeKey w⟩], program := [], results := [], draws := State.reset.draws }

/-- Reset leaves no state of the block (10_state R30: it has none); the input undriven, the host's list
empty and no program placed are the model's choices (log entries 2 and 3). -/
def Obligations.ResetHoldsNothing : Prop :=
  State.reset.key = none ∧ State.reset.keyBytes = none ∧ State.reset.pairs = [] ∧
  State.reset.results = [] ∧ step State.reset = .refused .programEnded
end

