-- ==== Sys2Proof/Laws/Bytes.lean ====
section
/-! SUPPORT. What the search for the first differing byte answers. -/

namespace Sys2Proof.Machine

theorem firstDifference_eq_none_iff {a b : Vector Byte 8} : firstDifference a b = none ↔ a = b := by
  constructor
  · intro h
    apply Vector.ext
    intro i hi
    simpa using List.find?_eq_none.mp h ⟨i, hi⟩ (List.mem_finRange _)
  · rintro rfl
    simp [firstDifference]

/-- The answer is the smallest index at which the two sequences differ. -/
theorem firstDifference_eq_some_iff {a b : Vector Byte 8} {i : Fin 8} :
    firstDifference a b = some i ↔ a[i] ≠ b[i] ∧ ∀ j : Fin 8, j < i → a[j] = b[j] := by
  unfold firstDifference
  rw [List.find?_eq_some_iff_getElem]
  constructor
  · rintro ⟨hi, n, hn, he, hlt⟩
    have hni : n = i.val := by simpa [Fin.ext_iff] using he
    refine ⟨by simpa using hi, fun j hj => ?_⟩
    have := hlt j.val (by rw [hni]; exact hj)
    simpa using this
  · rintro ⟨hi, hlt⟩
    refine ⟨by simpa using hi, i.val, by simp, by simp, fun j hj => ?_⟩
    simpa using hlt ⟨j, by omega⟩ hj

end Sys2Proof.Machine
end

