-- ==== Sys2Proof/Laws/State.lean ====
section
/-! SUPPORT. What each named update of a state does to each field. -/

namespace Sys2Proof.Machine

@[simp] theorem State.drive_applied (s : State) (w : Word) : (s.drive w).applied = some w := rfl
@[simp] theorem State.drive_pairs (s : State) (w : Word) : (s.drive w).pairs = s.pairs := rfl
@[simp] theorem State.drive_program (s : State) (w : Word) : (s.drive w).program = s.program := rfl
@[simp] theorem State.drive_results (s : State) (w : Word) : (s.drive w).results = s.results := rfl

@[simp] theorem State.observe_applied (s : State) (w : Word) : (s.observe w).applied = s.applied := rfl
@[simp] theorem State.observe_pairs (s : State) (w : Word) :
    (s.observe w).pairs = s.pairs ++ [⟨w, encodeKey w⟩] := rfl
@[simp] theorem State.observe_program (s : State) (w : Word) : (s.observe w).program = s.program := rfl
@[simp] theorem State.observe_results (s : State) (w : Word) : (s.observe w).results = s.results := rfl

@[simp] theorem State.addResult_applied (s : State) (r : HostResult) : (s.addResult r).applied = s.applied := rfl
@[simp] theorem State.addResult_pairs (s : State) (r : HostResult) : (s.addResult r).pairs = s.pairs := rfl
@[simp] theorem State.addResult_program (s : State) (r : HostResult) : (s.addResult r).program = s.program := rfl
@[simp] theorem State.addResult_results (s : State) (r : HostResult) :
    (s.addResult r).results = s.results ++ [r] := rfl

@[simp] theorem State.withProgram_applied (s : State) (p : List HostStep) :
    (s.withProgram p).applied = s.applied := rfl
@[simp] theorem State.withProgram_pairs (s : State) (p : List HostStep) : (s.withProgram p).pairs = s.pairs := rfl
@[simp] theorem State.withProgram_program (s : State) (p : List HostStep) : (s.withProgram p).program = p := rfl
@[simp] theorem State.withProgram_results (s : State) (p : List HostStep) :
    (s.withProgram p).results = s.results := rfl

@[simp] theorem State.withDraws_applied (s : State) (d : Nat) : (s.withDraws d).applied = s.applied := rfl
@[simp] theorem State.withDraws_pairs (s : State) (d : Nat) : (s.withDraws d).pairs = s.pairs := rfl
@[simp] theorem State.withDraws_program (s : State) (d : Nat) : (s.withDraws d).program = s.program := rfl
@[simp] theorem State.withDraws_results (s : State) (d : Nat) : (s.withDraws d).results = s.results := rfl
@[simp] theorem State.withDraws_draws (s : State) (d : Nat) : (s.withDraws d).draws = d := rfl
@[simp] theorem State.withDraws_key (s : State) (d : Nat) : (s.withDraws d).key = s.key := rfl
@[simp] theorem State.withDraws_self (s : State) : s.withDraws s.draws = s := rfl

@[simp] theorem State.drive_draws (s : State) (w : Word) : (s.drive w).draws = s.draws := rfl
@[simp] theorem State.observe_draws (s : State) (w : Word) : (s.observe w).draws = s.draws := rfl
@[simp] theorem State.addResult_draws (s : State) (r : HostResult) : (s.addResult r).draws = s.draws := rfl
@[simp] theorem State.withProgram_draws (s : State) (p : List HostStep) :
    (s.withProgram p).draws = s.draws := rfl

@[simp] theorem State.drive_key (s : State) (w : Word) : (s.drive w).key = some (encodeKey w) := rfl
@[simp] theorem State.observe_key (s : State) (w : Word) : (s.observe w).key = s.key := rfl
@[simp] theorem State.addResult_key (s : State) (r : HostResult) : (s.addResult r).key = s.key := rfl
@[simp] theorem State.withProgram_key (s : State) (p : List HostStep) : (s.withProgram p).key = s.key := rfl

theorem State.keyBytes_of_key {s : State} {k : Word} (h : s.key = some k) :
    s.keyBytes = some (toBytes k) := by
  simp [State.keyBytes, h]

end Sys2Proof.Machine
end

