-- ==== Sys2Proof/Laws/Encode.lean ====
section
/-! SUPPORT. What ENCODE does, once: cite these instead of unfolding the datapath. -/

namespace Sys2Proof.Machine

theorem encodeKey_of_sign {w : Word} (h : w[63] = true) : encodeKey w = ~~~w := by
  simp [encodeKey, signBit, negativePath, h]

theorem encodeKey_of_not_sign {w : Word} (h : w[63] = false) :
    encodeKey w = w ^^^ 0x8000000000000000 := by
  simp [encodeKey, signBit, nonNegativePath, h]

/-- The key as one conditional over the port's own bit 63. -/
theorem encodeKey_eq (w : Word) :
    encodeKey w = if w[63] then ~~~w else w ^^^ 0x8000000000000000 := rfl

/-- ENCODE always completes, with exactly this state. -/
theorem exec_encode (f : F64In) (s : State) :
    exec (.encode f) s = .next ((s.drive f.word).observe f.word) := rfl

/-- Taking a word apart into its fields and putting them together again gives the word. -/
theorem word_ofWord (w : Word) : (F64In.ofWord w).word = w := by
  apply BitVec.eq_of_getLsbD_eq
  intro j hj
  simp only [F64In.word, F64In.ofWord, BitVec.getLsbD_append, BitVec.getLsbD_extractLsb']
  split
  · simp [*]
  · split
    · rw [show 52 + (j - 52) = j by omega]
      simp only [Bool.and_eq_right_iff_imp, decide_eq_true_eq]
      omega
    · rw [show 63 + (j - 52 - 11) = j by omega]
      simp only [Bool.and_eq_right_iff_imp, decide_eq_true_eq]
      omega

/-- What a transaction of the word `w` does. -/
theorem exec_decode (w : Word) (s : State) : exec (decode w) s = .next ((s.drive w).observe w) := by
  rw [decode, exec_encode, word_ofWord]

end Sys2Proof.Machine
end

