-- ==== Sys2Proof/Laws/Sort.lean ====
section
/-! SUPPORT. Sorting keeps the elements of a list. -/

namespace Sys2Proof.Machine

theorem insertBy_perm (below : Observation → Observation → Bool) (x : Observation) (l : List Observation) :
    (insertBy below x l).Perm (x :: l) := by
  induction l with
  | nil => exact .refl _
  | cons y ys ih =>
    unfold insertBy
    split
    · exact (ih.cons y).trans (.swap x y ys)
    · exact .refl _

theorem sortBy_perm (below : Observation → Observation → Bool) (l : List Observation) :
    (sortBy below l).Perm l := by
  induction l with
  | nil => exact .refl _
  | cons x xs ih => exact (insertBy_perm below x _).trans (ih.cons x)

theorem mem_sortByKey {o : Observation} {l : List Observation} : o ∈ sortByKey l ↔ o ∈ l :=
  (sortBy_perm keyBelow l).mem_iff

theorem placeFreely_perm (draw : Nat) (xs l : List Observation) :
    (placeFreely draw xs l).Perm (xs ++ l) := by
  induction xs generalizing draw l with
  | nil => exact .refl _
  | cons x xs ih =>
    have hsplit : (l.take (Config.freePlace draw) ++ x :: l.drop (Config.freePlace draw)).Perm (x :: l) := by
      simpa using List.perm_middle (a := x) (l₁ := l.take (Config.freePlace draw))
        (l₂ := l.drop (Config.freePlace draw))
    exact (ih (draw + 1) _).trans ((hsplit.append_left xs).trans List.perm_middle)

/-- Placing pairs that a test rejects leaves the sublist it accepts as it was. -/
theorem filter_placeFreely {p : Observation → Bool} {xs : List Observation} (hx : ∀ x ∈ xs, p x = false)
    (draw : Nat) (l : List Observation) : (placeFreely draw xs l).filter p = l.filter p := by
  induction xs generalizing draw l with
  | nil => rfl
  | cons x xs ih =>
    have hx0 : p x = false := hx x List.mem_cons_self
    rw [placeFreely, ih (fun y hy => hx y (List.mem_cons_of_mem x hy)), List.filter_append,
      List.filter_cons_of_neg (by simp [hx0]), ← List.filter_append, List.take_append_drop]

/-- SORT_BY_VALUE keeps the pairs of the list, whatever the free places are. -/
theorem sortByValue_perm (draw : Nat) (l : List Observation) : (sortByValue draw l).Perm l :=
  (placeFreely_perm draw _ _).trans
    (((sortBy_perm valueBelow _).append_left _).trans (List.filter_append_perm (fun o => o.unordered) l))

theorem mem_sortByValue {o : Observation} {draw : Nat} {l : List Observation} :
    o ∈ sortByValue draw l ↔ o ∈ l :=
  (sortByValue_perm draw l).mem_iff

/-- The pairs that have a value stand in their sorted order, whatever the free places are. -/
theorem filter_sortByValue (draw : Nat) (l : List Observation) :
    (sortByValue draw l).filter (fun o => !o.unordered) =
      sortBy valueBelow (l.filter fun o => !o.unordered) := by
  rw [sortByValue, filter_placeFreely (by simp), List.filter_eq_self]
  intro o ho
  exact (List.mem_filter.mp ((sortBy_perm valueBelow _).mem_iff.mp ho)).2

/-- Without a NaN no free value is drawn, and the result is the sorted list. -/
theorem sortByValue_of_ordered {l : List Observation} (h : ∀ o ∈ l, isNaN o.input = false) (draw : Nat) :
    sortByValue draw l = sortBy valueBelow l ∧ sortByValueDraws l = 0 := by
  have hnone : (l.filter fun o => o.unordered) = [] := by
    simpa [Observation.unordered] using h
  have hall : (l.filter fun o => !o.unordered) = l := by
    simpa [Observation.unordered] using h
  simp [sortByValue, sortByValueDraws, hnone, hall, placeFreely]

end Sys2Proof.Machine
end

