-- ==== Sys2Proof/Laws/HostSteps.lean ====
section
/-! SUPPORT. What a step can do, once: claims about every step are case analyses over these. -/

namespace Sys2Proof.Machine

/-- A list expression names only sampled pairs, if the lists kept earlier do. -/
theorem mem_pairs_of_evalList {s : State}
    (hs : ∀ l, HostResult.order l ∈ s.results → ∀ o ∈ l, o ∈ s.pairs) :
    ∀ {e : ListExpr} {draw d : Nat} {l : List Observation},
      evalList s draw e = .ok (l, d) → ∀ o ∈ l, o ∈ s.pairs := by
  intro e
  induction e with
  | pairs =>
    intro draw d l h
    cases h
    exact fun _ ho => ho
  | result i =>
    intro draw d l h
    simp only [evalList] at h
    split at h
    · cases h
      exact hs _ (List.mem_of_getElem? (by assumption))
    · cases h
  | sortByKey e ih =>
    intro draw d l h o ho
    simp only [evalList] at h
    split at h
    · cases h
      exact ih (by assumption) o (mem_sortByKey.mp ho)
    · cases h
  | sortByValue e ih =>
    intro draw d l h o ho
    simp only [evalList] at h
    split at h
    · cases h
      exact ih (by assumption) o (mem_sortByValue.mp ho)
    · cases h

/-- A host step that goes on does one of these five things. -/
theorem runHostStep_cases {h : HostStep} {s t : State} (hrun : runHostStep h s = .next t) :
    (∃ w, t = s.drive w) ∨
    (∃ w, t = (s.drive w).observe w) ∨
    (∃ w, s.applied = some w ∧ t = s.observe w) ∨
    (∃ e l d, evalList s s.draws e = .ok (l, d) ∧ t = (s.withDraws d).addResult (.order l)) ∨
    (∃ r d, (∀ l, r ≠ .order l) ∧
      (t = (s.withDraws d).addResult r ∨ t = ((s.withDraws d).addResult r).withProgram [])) := by
  cases h with
  | transaction w =>
    rw [runHostStep, exec_decode] at hrun
    cases hrun
    exact .inr (.inl ⟨w, rfl⟩)
  | drive w =>
    cases hrun
    exact .inl ⟨w, rfl⟩
  | sample =>
    simp only [runHostStep, hostSample] at hrun
    split at hrun
    · cases hrun
      exact .inr (.inr (.inl ⟨_, by assumption, rfl⟩))
    · cases hrun
  | order e =>
    simp only [runHostStep, hostOrder] at hrun
    split at hrun
    · cases hrun
      exact .inr (.inr (.inr (.inl ⟨e, _, _, by assumption, rfl⟩)))
    · cases hrun
  | assertEqOrder a b =>
    simp only [runHostStep, hostAssertEqOrder] at hrun
    split at hrun
    · split at hrun
      · cases hrun
        unfold afterCheck
        split
        · exact .inr (.inr (.inr (.inr ⟨.check true, _, by simp, .inl rfl⟩)))
        · exact .inr (.inr (.inr (.inr ⟨.check false, _, by simp, .inr rfl⟩)))
      · cases hrun
    · cases hrun
  | lexcmp a b =>
    simp only [runHostStep, hostLexcmp] at hrun
    split at hrun
    · split at hrun
      · cases hrun
        exact .inr (.inr (.inr (.inr ⟨_, s.draws, by simp, .inl rfl⟩)))
      · cases hrun
    · cases hrun
  | unkey k =>
    simp only [runHostStep, hostUnkey] at hrun
    split at hrun
    · cases hrun
      exact .inr (.inr (.inr (.inr ⟨_, s.draws, by simp, .inl rfl⟩)))
    · cases hrun
  | storeKey k =>
    simp only [runHostStep, hostStoreKey] at hrun
    split at hrun
    · cases hrun
      exact .inr (.inr (.inr (.inr ⟨_, s.draws, by simp, .inl rfl⟩)))
    · cases hrun
  | requestDecode k => cases hrun
  | requestNineByteKey w => cases hrun

/-- A step that goes on runs the head of the program on the state that has the rest left to do. -/
theorem step_cases {s t : State} (h : step s = .next t) :
    ∃ hd rest, s.program = hd :: rest ∧ runHostStep hd (s.withProgram rest) = .next t := by
  unfold step at h
  split at h
  · cases h
  · exact ⟨_, _, by assumption, h⟩

end Sys2Proof.Machine
end

