-- ==== Sys2Proof/Laws/PerInstr.lean ====
section
/-! SUPPORT. Families of statements with one lemma per constructor of Instr. -/

namespace Sys2Proof.Laws.MatchesRow

/-- The word of the instruction is selected by its row of the opcode table, and is an input word of the
block (30_encoding R47, R52). -/
def Statement (i : Instr) : Prop :=
  encodeRowSelects (encodeInstr i) = true ∧ wellFormedInput 64 (encodeInstr i).toNat = true

theorem encode (f : F64In) : Statement (.encode f) := by
  constructor
  · simp [encodeRowSelects, encodeRowMask, encodeRowMatch]
  · simp only [wellFormedInput, Config.inputBits, Bool.and_eq_true, decide_eq_true_eq]
    exact ⟨rfl, BitVec.isLt _⟩

end Sys2Proof.Laws.MatchesRow
end

