-- ==== Sys2Proof/Laws/Value.lean ====
section
/-! SUPPORT. The magnitude of a finite pattern as a natural number over `2^1074`, and its monotonicity. -/

namespace Sys2Proof.Machine

theorem twoPower_eq_zpow (k : Int) : twoPower k = (2 : Rat) ^ k := by
  cases k with
  | ofNat n => simp [twoPower]
  | negSucc n => simp [twoPower, Rat.mkRat_eq_div, zpow_negSucc]

/-- The magnitude of a finite pattern in units of the smallest subnormal, `2^(-1074)`. -/
def scaledMagnitude (e t : Nat) : Nat := if e = 0 then t else 2 ^ (e - 1) * (2 ^ 52 + t)

theorem finiteMagnitude_eq_scaled (e t : Nat) :
    finiteMagnitude e t = (scaledMagnitude e t : Rat) / 2 ^ 1074 := by
  unfold finiteMagnitude scaledMagnitude
  split
  · rw [twoPower_eq_zpow, Rat.mkRat_eq_div, Config.exponentBias, Config.fractionBits]
    rw [show (1 : Int) - (1023 : Nat) = -(1022 : Nat) by norm_num, zpow_neg, zpow_natCast]
    push_cast
    rw [show (2 : Rat) ^ 1074 = 2 ^ 1022 * 2 ^ 52 by rw [← pow_add]]
    field_simp
    ring
  · obtain ⟨k, rfl⟩ : ∃ k, e = k + 1 := ⟨e - 1, by omega⟩
    rw [twoPower_eq_zpow, Rat.mkRat_eq_div, Config.exponentBias, Config.fractionBits]
    rw [show ((k + 1 : Nat) : Int) - (1023 : Nat) = (k : Int) - (1022 : Nat) by push_cast; ring]
    rw [zpow_sub₀ (by norm_num), zpow_natCast, zpow_natCast, Nat.add_sub_cancel]
    push_cast
    rw [show (2 : Rat) ^ 1074 = 2 ^ 1022 * 2 ^ 52 by rw [← pow_add]]
    field_simp
    norm_num

/-- Among finite patterns the magnitude grows exactly as bits 62..0 do (40_encode R66, its derivation). -/
theorem scaledMagnitude_lt_iff {e t e' t' : Nat} (ht : t < 2 ^ 52) (ht' : t' < 2 ^ 52) :
    scaledMagnitude e t < scaledMagnitude e' t' ↔ e * 2 ^ 52 + t < e' * 2 ^ 52 + t' := by
  have key : ∀ {e t e' t' : Nat}, t < 2 ^ 52 → t' < 2 ^ 52 → e * 2 ^ 52 + t < e' * 2 ^ 52 + t' →
      scaledMagnitude e t < scaledMagnitude e' t' := by
    intro e t e' t' ht ht' h
    unfold scaledMagnitude
    rcases Nat.lt_or_ge e e' with hlt | hge
    · rw [if_neg (by omega : e' ≠ 0)]
      have h1 : 2 ^ (e' - 1) * 2 ^ 52 ≤ 2 ^ (e' - 1) * (2 ^ 52 + t') := Nat.mul_le_mul_left _ (by omega)
      split
      · have : 1 * 2 ^ 52 ≤ 2 ^ (e' - 1) * 2 ^ 52 := Nat.mul_le_mul_right _ Nat.one_le_two_pow
        omega
      · have h2 : 2 ^ (e - 1) * (2 ^ 52 + t) < 2 ^ (e - 1) * 2 ^ 53 :=
          Nat.mul_lt_mul_of_pos_left (by omega) (by positivity)
        have h3 : 2 ^ (e - 1) * 2 ^ 53 ≤ 2 ^ (e' - 1) * 2 ^ 52 := by
          rw [← pow_add, ← pow_add]
          exact Nat.pow_le_pow_right (by norm_num) (by omega)
        omega
    · obtain rfl : e = e' := by omega
      have htt : t < t' := by omega
      split
      · exact htt
      · exact Nat.mul_lt_mul_of_pos_left (by omega) (by positivity)
  constructor
  · intro h
    by_contra hc
    rcases Nat.lt_or_ge (e' * 2 ^ 52 + t') (e * 2 ^ 52 + t) with hlt | hge
    · exact absurd (key ht' ht hlt) (by omega)
    · obtain rfl : e = e' := by omega
      obtain rfl : t = t' := by omega
      exact absurd h (lt_irrefl _)
  · exact key ht ht'

theorem finiteMagnitude_lt_iff {e t e' t' : Nat} (ht : t < 2 ^ 52) (ht' : t' < 2 ^ 52) :
    finiteMagnitude e t < finiteMagnitude e' t' ↔ e * 2 ^ 52 + t < e' * 2 ^ 52 + t' := by
  rw [finiteMagnitude_eq_scaled, finiteMagnitude_eq_scaled,
    div_lt_div_iff_of_pos_right (by positivity), Nat.cast_lt, scaledMagnitude_lt_iff ht ht']

end Sys2Proof.Machine
end

