-- ==== Sys2Proof/Machine/Literal.lean ====
section
/-! DEFINITION. Decimal operands of a transaction (30_encoding R54): `ENCODE 3.14` abbreviates the binary64
pattern of that decimal, by round-to-nearest-even. PRESUMED: the rounding is from general knowledge, as the
spec marks it (D17; log entry 8). The block never rounds (40_encode R71): the host writes the pattern. -/

namespace Sys2Proof.Machine

/-- A decimal literal: its sign, its digits read as one number, and how many of them follow the point.
`-3.14` is a minus sign, 314 and 2. -/
structure DecimalLiteral where
  negative : Bool
  digits : Nat
  places : Nat
  deriving DecidableEq, Repr

/-- `n / d` rounded to an integer, ties to even. -/
def roundHalfEven (n d : Nat) : Nat :=
  if 2 * (n % d) < d then n / d
  else if d < 2 * (n % d) then n / d + 1
  else n / d + n / d % 2

/-- The exponent of the binade of `n / d`, that is the largest `e` with `2^e <= n/d`, but never below the
least normal exponent, which is also the binade of zero. -/
def binadeOf (n d : Nat) : Int :=
  let e : Int := (n.log2 : Int) - (d.log2 : Int)
  let below : Bool := if 0 ≤ e then n < d * 2 ^ e.toNat else n * 2 ^ (-e).toNat < d
  if n = 0 then 1 - Config.exponentBias
  else max (if below then e - 1 else e) (1 - Config.exponentBias)

/-- Bits 62..0 of the binary64 number nearest to `n / d`, ties to even. A magnitude that rounds beyond the
largest finite number gives the infinity's bits. -/
def nearestMagnitude (n d : Nat) : Nat :=
  let e := binadeOf n d
  let quantum : Int := e - Config.fractionBits
  let significand :=
    if 0 ≤ quantum then roundHalfEven n (d * 2 ^ quantum.toNat)
    else roundHalfEven (n * 2 ^ (-quantum).toNat) d
  min ((e + Config.exponentBias - 1).toNat * 2 ^ Config.fractionBits + significand) (0x7FF * 2 ^ Config.fractionBits)

/-- The input word a decimal literal abbreviates (30_encoding R54). -/
def DecimalLiteral.word (l : DecimalLiteral) : Word :=
  BitVec.ofNat 64 ((if l.negative then 2 ^ 63 else 0) + nearestMagnitude l.digits (10 ^ l.places))

end Sys2Proof.Machine
end

