-- ==== Sys2Proof/Tests/Slice0.lean ====
section
/-! SUPPORT. The model's own tests: the vectors of 95_test_vectors, small steps, the refusals of the
decoder, and a witness for every statement that has hypotheses. Every expected value is the spec's. -/

namespace Sys2Proof.Machine

/-- A host that has sampled these inputs and has this program left. -/
def hostWith (inputs : List Word) (program : List HostStep) : State where
  applied := inputs.getLast?
  pairs := inputs.map fun w => ⟨w, encodeKey w⟩
  program := program
  results := []
  draws := 0

/-- The state a step answers, if it goes on. -/
def nextOf (o : Host.Outcome State Fault Refusal) : Option State :=
  match o with
  | .next t => some t
  | _ => none

/-- The refusal a step answers, if it stops with one. -/
def refusalOf (o : Host.Outcome State Fault Refusal) : Option Refusal :=
  match o with
  | .refused r => some r
  | _ => none

/-! ## What is no input of the block -/

theorem test_wellFormed_refuses_nine_bytes : wellFormedInput 72 0 = false := by decide
theorem test_wellFormed_refuses_binary32 : wellFormedInput 32 0x3F800000 = false := by decide
theorem test_wellFormed_refuses_wide_value : wellFormedInput 64 (2 ^ 64) = false := by decide
theorem test_decode_names_wrong_width : decodeInput 63 0 = .error (.notSixtyFourBits 63) := by decide
theorem test_decode_names_wide_value :
    decodeInput 64 (2 ^ 64) = .error (.valueTooWide 64 (2 ^ 64)) := by decide
theorem test_decodeTableWord_nine_bytes : decodeTableWord 72 0 = none := by decide

/-! ## Decoding: words written out from 30_encoding R45 -/

/-- V4, -1.0: sign 1, exponent 01111111111, fraction 0. -/
theorem test_decode_minus_one :
    decode 0b1011111111110000000000000000000000000000000000000000000000000000#64
      = .encode ⟨0b1, 0b01111111111, 0⟩ := by decide
/-- V9, 3.14: sign 0, exponent 0x400, fraction 0x91EB851EB851F. -/
theorem test_decode_pi : decodeTableWord 64 0x40091EB851EB851F
    = some (.encode ⟨0, 0x400, 0x91EB851EB851F⟩) := by decide
/-- V24, a signalling NaN: sign 0, exponent all ones, fraction 1. -/
theorem test_decode_signalling_nan : decode 0x7FF0000000000001 = .encode ⟨0, 0x7FF, 1⟩ := by decide
theorem test_encode_assembles_fields : encodeInstr (.encode ⟨1, 0x401, 0x47AE147AE147B⟩)
    = 0xC0147AE147AE147B := by decide

/-! ## 95_test_vectors 2.1: keys and their bytes -/

/-- V1 to V12. -/
theorem test_keys_V1_to_V12 :
    [0x0000000000000000, 0x8000000000000000, 0x3FF0000000000000, 0xBFF0000000000000,
     0x3FE0000000000000, 0xBFE0000000000000, 0x4000000000000000, 0xC000000000000000,
     0x40091EB851EB851F, 0xC0091EB851EB851F, 0x40147AE147AE147B, 0xC0147AE147AE147B].map encodeKey =
    [0x8000000000000000, 0x7FFFFFFFFFFFFFFF, 0xBFF0000000000000, 0x400FFFFFFFFFFFFF,
     0xBFE0000000000000, 0x401FFFFFFFFFFFFF, 0xC000000000000000, 0x3FFFFFFFFFFFFFFF,
     0xC0091EB851EB851F, 0x3FF6E147AE147AE0, 0xC0147AE147AE147B, 0x3FEB851EB851EB84] := by decide
/-- V13 to V22. -/
theorem test_keys_V13_to_V22 :
    [0x0000000000000001, 0x000FFFFFFFFFFFFF, 0x0010000000000000, 0x7FEFFFFFFFFFFFFF,
     0x8000000000000001, 0x800FFFFFFFFFFFFF, 0x8010000000000000, 0xFFEFFFFFFFFFFFFF,
     0x7FF0000000000000, 0xFFF0000000000000].map encodeKey =
    [0x8000000000000001, 0x800FFFFFFFFFFFFF, 0x8010000000000000, 0xFFEFFFFFFFFFFFFF,
     0x7FFFFFFFFFFFFFFE, 0x7FF0000000000000, 0x7FEFFFFFFFFFFFFF, 0x0010000000000000,
     0xFFF0000000000000, 0x000FFFFFFFFFFFFF] := by decide
/-- V23 to V32. -/
theorem test_keys_V23_to_V32 :
    [0x7FF8000000000000, 0x7FF0000000000001, 0x7FFFFFFFFFFFFFFF, 0xFFF8000000000000,
     0xFFF0000000000001, 0xFFFFFFFFFFFFFFFF, 0x5555555555555555, 0xAAAAAAAAAAAAAAAA,
     0x0123456789ABCDEF, 0xFEDCBA9876543210].map encodeKey =
    [0xFFF8000000000000, 0xFFF0000000000001, 0xFFFFFFFFFFFFFFFF, 0x0007FFFFFFFFFFFF,
     0x000FFFFFFFFFFFFE, 0x0000000000000000, 0xD555555555555555, 0x5555555555555555,
     0x8123456789ABCDEF, 0x0123456789ABCDEF] := by decide
/-- V12 and V31, byte view. -/
theorem test_bytes_V12_V31 :
    toBytes (encodeKey 0xC0147AE147AE147B) = #v[0x3F, 0xEB, 0x85, 0x1E, 0xB8, 0x51, 0xEB, 0x84] ∧
    toBytes (encodeKey 0x0123456789ABCDEF) = #v[0x81, 0x23, 0x45, 0x67, 0x89, 0xAB, 0xCD, 0xEF] := by decide
/-- B1 and B2. -/
theorem test_lexCompare_B1_B2 :
    lexCompare (toBytes 0x100) (toBytes 0xFF) = .gt ∧
    lexCompare (toBytes 0x00FFFFFFFFFFFFFF) (toBytes 0x0100000000000000) = .lt ∧
    lexCompare (toBytes 0xBFF0000000000000) (toBytes 0xBFF0000000000000) = .eq := by decide
/-- I2, I3 and I6. -/
theorem test_unkey_I2_I3_I6 :
    unkey 0x7FFFFFFFFFFFFFFF = 0x8000000000000000 ∧
    unkey 0x3FEB851EB851EB84 = 0xC0147AE147AE147B ∧
    unkey 0xFFF8000000000000 = 0x7FF8000000000000 := by decide

/-! ## One step -/

/-- The first transaction of P1, placed after reset. -/
theorem test_step_encode_after_reset :
    (nextOf (step (State.reset.withFetchWord 64 0x40091EB851EB851F))).map (fun t => (t.pairs, t.program)) =
      some ([⟨0x40091EB851EB851F, 0xC0091EB851EB851F⟩], []) := by decide
/-- A later transaction of P1 keeps the earlier pair and the rest of the program. -/
theorem test_step_encode_appends :
    (nextOf (step (hostWith [0x0000000000000000] [.transaction 0xC0091EB851EB851F, .sample]))).map
        (fun t => (t.pairs, t.program)) =
      some ([⟨0x0000000000000000, 0x8000000000000000⟩, ⟨0xC0091EB851EB851F, 0x3FF6E147AE147AE0⟩],
        [.sample]) := by decide
/-- P1's SORT_BY_KEY. -/
theorem test_step_sortByKey_P1 :
    (nextOf (step (hostWith [0x40091EB851EB851F, 0xC0147AE147AE147B, 0x40147AE147AE147B,
        0x0000000000000000, 0xC0091EB851EB851F] [.order (.sortByKey .pairs)]))).map (fun t => t.results) =
      some [.order [⟨0xC0147AE147AE147B, 0x3FEB851EB851EB84⟩, ⟨0xC0091EB851EB851F, 0x3FF6E147AE147AE0⟩,
        ⟨0x0000000000000000, 0x8000000000000000⟩, ⟨0x40091EB851EB851F, 0xC0091EB851EB851F⟩,
        ⟨0x40147AE147AE147B, 0xC0147AE147AE147B⟩]] := by decide
/-- P2's assertion fails: the two zeros are equal by value, not by key. -/
theorem test_step_assertEqOrder_P2 :
    (nextOf (step (hostWith [0x0000000000000000, 0x0000000000000001, 0x8000000000000000,
        0x8000000000000001] [.assertEqOrder (.sortByKey .pairs) (.sortByValue .pairs), .sample]))).map
        (fun t => (t.results, t.program)) = some ([.check false], []) := by decide +kernel
/-- P1's assertion holds (three of its inputs). -/
theorem test_step_assertEqOrder_P1 :
    (nextOf (step (hostWith [0x40091EB851EB851F, 0xC0147AE147AE147B, 0x0000000000000000]
        [.assertEqOrder (.sortByKey .pairs) (.sortByValue .pairs), .sample]))).map
        (fun t => (t.results, t.program)) = some ([.check true], [.sample]) := by decide +kernel
/-- P2's first LEXCMP, of the keys of minus zero and plus zero. -/
theorem test_step_lexcmp_P2 :
    (nextOf (step (hostWith [0x0000000000000000, 0x8000000000000000]
        [.lexcmp (.sampled 1) (.sampled 0)]))).map (fun t => t.results) =
      some [.comparison .lt] := by decide
/-- P4's UNKEY of a NaN's key. -/
theorem test_step_unkey_P4 :
    (nextOf (step (hostWith [0xFFFFFFFFFFFFFFFF] [.unkey (.sampled 0)]))).map (fun t => t.results) =
      some [.inputWord 0xFFFFFFFFFFFFFFFF] := by decide
/-- The stored field of V9's key, lowest position first. -/
theorem test_step_storeKey :
    (nextOf (step (hostWith [0x40091EB851EB851F] [.storeKey (.sampled 0)]))).map (fun t => t.results) =
      some [.stored #v[0xC0, 0x09, 0x1E, 0xB8, 0x51, 0xEB, 0x85, 0x1F]] := by decide
/-- SORT_BY_VALUE of a list with a NaN completes, and the two pairs that have a value stand in ascending
order wherever the NaN comes to stand: 1.0 was sampled before -1.0. -/
theorem test_step_sortByValue_with_nan :
    let s := hostWith [0x3FF0000000000000, 0x7FF8000000000000, 0xBFF0000000000000]
      [.order (.sortByValue .pairs)]
    (∃ l, (nextOf (step s)).map (fun t => t.results) = some [.order l] ∧
      l.filter (fun o => !o.unordered) =
        [⟨0xBFF0000000000000, 0x400FFFFFFFFFFFFF⟩, ⟨0x3FF0000000000000, 0xBFF0000000000000⟩]) := by
  refine ⟨_, rfl, ?_⟩
  rw [filter_sortByValue]
  decide +kernel
/-- P5: the 9-byte variant is refused by name. -/
theorem test_step_nine_byte_refused :
    refusalOf (step (hostWith [] [.requestNineByteKey 0xC0147AE147AE147B])) =
      some .legacyNineByteVariant := by decide
theorem test_step_stops :
    refusalOf (step State.reset) = some .programEnded ∧
    refusalOf (step (hostWith [] [.sample])) = some .inputUndriven ∧
    refusalOf (step (hostWith [] [.unkey (.sampled 0)])) = some (.noSuchPair 0) ∧
    refusalOf (step (hostWith [] [.order (.result 0)])) = some (.noSuchOrder 0) := by decide

/-! ## Values, classes and decimal literals -/

/-- O5, O8 and O9: numeric order. -/
theorem test_numLess :
    numLess 0xC000000000000000 0xBFF0000000000000 = true ∧
    numLess 0x7FEFFFFFFFFFFFFF 0x7FF0000000000000 = true ∧
    numLess 0x7FF0000000000000 0x7FF8000000000000 = false := by decide +kernel
/-- V8, -2.0, and V5, 0.5. -/
theorem test_val : val 0xC000000000000000 = some (.finite (-2)) ∧
    val 0x3FE0000000000000 = some (.finite (1 / 2)) := by decide +kernel
/-- V14, V16 and V26. -/
theorem test_classOf : classOf 0x000FFFFFFFFFFFFF = .subnormal ∧ classOf 0x7FEFFFFFFFFFFFFF = .normal ∧
    classOf 0xFFF8000000000000 = .nan := by decide
/-- V10, V11 and V2. -/
theorem test_decimal_literals :
    DecimalLiteral.word ⟨true, 314, 2⟩ = 0xC0091EB851EB851F ∧
    DecimalLiteral.word ⟨false, 512, 2⟩ = 0x40147AE147AE147B ∧
    DecimalLiteral.word ⟨true, 0, 1⟩ = 0x8000000000000000 := by decide +kernel

/-! ## Witnesses: the hypotheses of the statements can be met -/

theorem witness_EveryInputWord : (72 : Nat) ≠ 64 := by decide
theorem witness_DecodeAndEncode :
    (Instr.encode ⟨1, 0x7FF, 5⟩).wellFormed = true ∧
    decodeInput 64 0x7FF0000000000001 = .ok (.encode ⟨0, 0x7FF, 1⟩) ∧
    encodeInstr (.encode ⟨0, 0, 7⟩) = encodeInstr (.encode ⟨0, 0, 7⟩) := by decide
theorem witness_StepRunsTheDecodedInstruction :
    (hostWith [1] [.transaction 0xBFF0000000000000, .sample]).program =
      .transaction 0xBFF0000000000000 :: [.sample] ∧
    decode 0xBFF0000000000000 = .encode ⟨1, 0x3FF, 0⟩ := by decide
theorem witness_EncodeGivesTheKey :
    exec (.encode ⟨1, 0, 0⟩) State.reset =
      .next ((State.reset.drive 0x8000000000000000).observe 0x8000000000000000) := rfl
theorem witness_NegativePath : (⟨1, 0x7FF, 0⟩ : F64In).sign = 1 := by decide
theorem witness_NonNegativePath : (⟨0, 0, 0⟩ : F64In).sign = 0 := by decide
theorem witness_EncodeFrame :
    exec (.encode ⟨0, 0x3FF, 0⟩) (hostWith [1, 2] [.sample]) =
      .next (((hostWith [1, 2] [.sample]).drive 0x3FF0000000000000).observe 0x3FF0000000000000) := rfl
theorem witness_SignBit : (0x8000000000000000 : Word)[63] = true ∧ (0x7FFFFFFFFFFFFFFF : Word)[63] = false ∧
    (0x8000000000000001 : Word)[63] = (0xFFFFFFFFFFFFFFFF : Word)[63] := by decide
theorem witness_FirstDifference :
    (∀ i : Fin 8, (toBytes 7)[i] = (toBytes 7)[i]) ∧
    ((∀ j : Fin 8, j < 7 → (toBytes 1)[j] = (toBytes 2)[j]) ∧
      (toBytes 1)[(7 : Fin 8)].toNat < (toBytes 2)[(7 : Fin 8)].toNat) := by decide
theorem witness_InfinityAndNaN :
    (0xFFF0000000000001 : Word) ≤ 0xFFF0000000000001 ∧
    ((0x7FF0000000000001 : Word) ≤ 0x7FFFFFFFFFFFFFFF ∧ (0x7FFFFFFFFFFFFFFF : Word) ≤ 0x7FFFFFFFFFFFFFFF) ∧
    (0xFFF0000000000000 : Word) ≤ 0xFFF0000000000000 ∧
    ((0x7FF0000000000000 : Word) ≤ 0x7FF0000000000000 ∧
      (0x7FF0000000000000 : Word) ≤ 0x7FFFFFFFFFFFFFFF) := by decide
theorem witness_Subnormal :
    (classOf 0x000FFFFFFFFFFFFF = .subnormal ∧ (0x000FFFFFFFFFFFFF : Word)[63] = false) ∧
    (classOf 0x8000000000000001 = .subnormal ∧ (0x8000000000000001 : Word)[63] = true) := by decide
/-- O3: a negative subnormal and minus zero. -/
theorem witness_SignSeparation :
    ((0x8000000000000000 : Word)[63] = true ∧ (0 : Word)[63] = false) ∧
    (numLess 0x8000000000000001 0 = true ∧ numEqual 0x8000000000000000 0 = true) ∧
    numLess 0 0x0000000000000001 = true := by decide +kernel
/-- O5 and O1. -/
theorem witness_OrderPreservation :
    (isNaN 0xC000000000000000 = false ∧ isNaN 0xBFF0000000000000 = false ∧
      numLess 0xC000000000000000 0xBFF0000000000000 = true) ∧
    (isNaN 0x8000000000000000 = false ∧ isNaN 0 = false ∧
      encodeKey 0x8000000000000000 < encodeKey 0) := by decide +kernel
theorem witness_EqualityOfKeys : numEqual 0 0x8000000000000000 = true ∧
    numEqual 0x3FF0000000000000 0x3FF0000000000000 = true := by decide +kernel
theorem witness_TotalOrderByRanks :
    rankOf 0x8000000000000000 < rankOf 0 ∧
    (rankOf 0xFFFFFFFFFFFFFFFF = 1 ∧ rankOf 0xFFF0000000000001 = 1 ∧
      fractionOf 0xFFF0000000000001 < fractionOf 0xFFFFFFFFFFFFFFFF) ∧
    (rankOf 0x7FF0000000000001 = 10 ∧ rankOf 0x7FFFFFFFFFFFFFFF = 10 ∧
      fractionOf 0x7FF0000000000001 < fractionOf 0x7FFFFFFFFFFFFFFF) ∧
    (rankOf 0xFFEFFFFFFFFFFFFF ∈ [3, 4, 7, 8] ∧ rankOf 0x8010000000000000 = rankOf 0xFFEFFFFFFFFFFFFF) := by
  decide
theorem witness_ValueOfAPattern :
    (exponentOf 0x7FF8000000000000 = 0x7FF ∧ fractionOf 0x7FF8000000000000 ≠ 0) ∧
    (exponentOf 0xFFF0000000000000 = 0x7FF ∧ fractionOf 0xFFF0000000000000 = 0) ∧
    (1 ≤ exponentOf 0x0010000000000000 ∧ exponentOf 0x7FEFFFFFFFFFFFFF ≤ 0x7FE ∧
      exponentOf 0x0010000000000000 ≤ 0x7FE) ∧
    exponentOf 0x800FFFFFFFFFFFFF = 0 ∧ isNaN 0xFFF0000000000001 = true := by decide
theorem witness_ClassesAreRanges : (0x7FF0000000000001 : Word)[63] = false ∧
    classOf 0x7FF0000000000001 = .nan ∧ classOf 0x0010000000000000 = .normal := by decide
theorem witness_OutputIsAFunctionOfTheInput :
    (hostWith [3] []).applied = some 3 ∧
    (hostWith [3] []).applied = (hostWith [5, 3] [.sample]).applied := by decide
theorem witness_EncodeIsRepeatable : hostSample (hostWith [9] []) = .next ((hostWith [9] []).observe 9) := rfl
theorem witness_TransactionIsDriveThenSample :
    (hostWith [9] []).applied = some 9 ∧
    runHostStep (.drive 4) (hostWith [9] []) = .next ((hostWith [9] []).drive 4) := ⟨by decide, rfl⟩
theorem witness_UndrivenInput : State.reset.applied = none := by decide
theorem witness_FormsTheBlockLacks :
    (hostWith [] [.requestNineByteKey 0, .sample]).program = .requestNineByteKey 0 :: [.sample] ∧
    (hostWith [] [.requestDecode 0, .sample]).program = .requestDecode 0 :: [.sample] := by decide
theorem witness_SortByValue :
    ∀ o ∈ (hostWith [0x3FF0000000000000, 0] []).pairs, isNaN o.input = false := by decide
/-- A list of true observations with one zero and no NaN. -/
theorem witness_SortingAgrees :
    (∀ o ∈ (hostWith [0x3FF0000000000000, 0] []).pairs, o.key = encodeKey o.input) ∧
    (∀ o ∈ (hostWith [0x3FF0000000000000, 0] []).pairs, isNaN o.input = false) ∧
    ¬ ((∃ o ∈ (hostWith [0x3FF0000000000000, 0] []).pairs, o.input = 0x0000000000000000) ∧
       (∃ o ∈ (hostWith [0x3FF0000000000000, 0] []).pairs, o.input = 0x8000000000000000)) := by decide
/-- A host that has kept one sorted list. -/
def hostWithOrder : State :=
  (hostWith [7] []).addResult (.order [⟨7, 0x8000000000000007⟩])
theorem witness_HostSteps_keys :
    (evalKey hostWithOrder (.sampled 0)).toOption = some (encodeKey 7) ∧
    (evalKey hostWithOrder (.word 0x8000000000000007)).toOption = some (encodeKey 7) := by decide
theorem witness_HostSteps_lists :
    evalList hostWithOrder 0 (.result 0) = .ok ([⟨7, 0x8000000000000007⟩], 0) ∧
    evalList hostWithOrder 0 (.sortByValue .pairs) = .ok ([⟨7, 0x8000000000000007⟩], 0) := ⟨rfl, rfl⟩
theorem witness_HostOperandForms :
    hostWithOrder.pairs[0]? = some ⟨7, 0x8000000000000007⟩ ∧ hostWithOrder.pairs.length ≤ 1 ∧
    hostWithOrder.results[0]? = some (.order [⟨7, 0x8000000000000007⟩]) ∧
    hostWithOrder.results.length ≤ 1 := by decide
/-- A sound state other than reset, and a step of it. -/
theorem witness_StepKeepsSound :
    (hostWith [7] [.transaction 9]).Sound ∧
    step (hostWith [7] [.transaction 9]) =
      .next (((hostWith [7] []).drive 9).observe 9) := by
  refine ⟨⟨?_, ?_, ?_⟩, ?_⟩
  · simp [hostWith, Observation.truthful]
  · simp [hostWith]
  · simp [hostWith]
  · exact exec_decode 9 _
theorem witness_StepsUseUpTheProgram :
    step (hostWith [7] [.drive 9, .sample]) = .next ((hostWith [7] [.sample]).drive 9) := rfl

end Sys2Proof.Machine
end

section
/-! PROOFS. Lexicographic order is decided at the first difference (00_scope R17). -/

namespace Sys2Proof.Machine

theorem lexLess_iff_firstDifference {a b : Vector Byte 8} :
    lexLess a b = true ↔ ∃ i, firstDifference a b = some i ∧ a[i].toNat < b[i].toNat := by
  unfold lexLess lexCompare
  cases firstDifference a b with
  | none => simp
  | some i => simp

/-- The smaller byte already makes its index a difference, so that it is the first one needs saying only of
the indexes before it. -/
theorem lexLess_iff {a b : Vector Byte 8} :
    lexLess a b = true ↔ ∃ i : Fin 8, (∀ j : Fin 8, j < i → a[j] = b[j]) ∧ a[i].toNat < b[i].toNat := by
  rw [lexLess_iff_firstDifference]
  refine exists_congr fun i => ?_
  rw [firstDifference_eq_some_iff]
  constructor
  · rintro ⟨⟨-, hbefore⟩, hlt⟩
    exact ⟨hbefore, hlt⟩
  · rintro ⟨hbefore, hlt⟩
    have hne : a[i] ≠ b[i] := fun heq => hlt.ne (congrArg BitVec.toNat heq)
    exact ⟨⟨hne, hbefore⟩, hlt⟩

@[simp] theorem lexLess_self (a : Vector Byte 8) : lexLess a a = false := by
  have hnone : firstDifference a a = none := firstDifference_eq_none_iff.mpr rfl
  simp [lexLess, lexCompare, hnone]

/-- Settles O15: the first difference decides, and equal bytes leave none. -/
theorem lexicographicOrderIsTheFirstDifference : Obligations.LexicographicOrderIsTheFirstDifference := by
  refine ⟨fun _ _ => lexLess_iff, fun a b heq => ?_⟩
  obtain rfl : a = b := Vector.ext fun i hi => heq ⟨i, hi⟩
  exact ⟨rfl, lexLess_self a, lexLess_self a⟩

end Sys2Proof.Machine
end

section
/-! PROOFS. The places of the F64IN fields in the input word (00_scope R12, 30_encoding R45). -/

namespace Sys2Proof

theorem F64In.getLsbD_word (f : F64In) (j : Nat) :
    f.word.getLsbD j =
      if j < 52 then f.frac.getLsbD j
      else if j < 63 then f.exp.getLsbD (j - 52)
      else f.sign.getLsbD (j - 63) := by
  have hexp : j - 52 < 11 ↔ j < 63 := by omega
  have hsign : j - 52 - 11 = j - 63 := by omega
  simp only [F64In.word, BitVec.getLsbD_append, hexp, hsign]

@[simp] theorem F64In.getLsbD_sign_ofWord (w : Word) (j : Nat) :
    (F64In.ofWord w).sign.getLsbD j = (decide (j < 1) && w.getLsbD (63 + j)) :=
  BitVec.getLsbD_extractLsb' ..

@[simp] theorem F64In.getLsbD_exp_ofWord (w : Word) (j : Nat) :
    (F64In.ofWord w).exp.getLsbD j = (decide (j < 11) && w.getLsbD (52 + j)) :=
  BitVec.getLsbD_extractLsb' ..

@[simp] theorem F64In.getLsbD_frac_ofWord (w : Word) (j : Nat) :
    (F64In.ofWord w).frac.getLsbD j = (decide (j < 52) && w.getLsbD j) := by
  simp only [F64In.ofWord, BitVec.getLsbD_extractLsb', Nat.zero_add]

/-- Settles O2: assembling appends the three fields, and taking apart extracts them. -/
theorem fieldsStandWhereF64InPutsThem : Obligations.FieldsStandWhereF64InPutsThem :=
  ⟨F64In.getLsbD_word, fun w =>
    ⟨F64In.getLsbD_sign_ofWord w, F64In.getLsbD_exp_ofWord w, F64In.getLsbD_frac_ofWord w⟩⟩

end Sys2Proof
end

section
/-! PROOFS. The output ports as views of the driven input (10_state R22). -/

namespace Sys2Proof.Machine

/-- Byte `i` of the byte view is bits `63-8i` to `56-8i` of the key (20_memory R31). -/
theorem getElem_toBytes (k : Word) (i : Fin 8) :
    (toBytes k)[i] = k.extractLsb' (56 - 8 * i.val) 8 := by
  fin_cases i <;> rfl

theorem State.key_of_applied {s : State} {w : Word} (h : s.applied = some w) :
    s.key = some (encodeKey w) := by
  simp [State.key, h]

theorem State.key_congr {s t : State} (h : s.applied = t.applied) : s.key = t.key :=
  congrArg (Option.map encodeKey) h

theorem State.keyBytes_congr {s t : State} (h : s.key = t.key) : s.keyBytes = t.keyBytes :=
  congrArg (Option.map toBytes) h

/-- Settles O29: both ports are read off the driven input, the byte view through the key. -/
theorem outputIsAFunctionOfTheInput : Obligations.OutputIsAFunctionOfTheInput := by
  refine ⟨fun s w hw => ?_, fun s t h => ?_⟩
  · have hkey := State.key_of_applied hw
    exact ⟨hkey, toBytes (encodeKey w), State.keyBytes_of_key hkey, getElem_toBytes (encodeKey w)⟩
  · have hkey := State.key_congr h
    exact ⟨hkey, State.keyBytes_congr hkey⟩

end Sys2Proof.Machine
end

section
/-! PROOFS. The byte order of the key (20_memory R31), and why comparing bytes lexicographically compares
the keys as unsigned integers (R33): the first `n` bytes are the digits of a number, and the numbers of two
keys first part at the first byte that differs. -/

namespace Sys2Proof.Machine

/-- The number that the first `n` bytes of a key make, most significant first. -/
def leadingValue (k : Word) (n : Nat) : Nat := k.toNat / 2 ^ (64 - 8 * n)

@[simp] theorem leadingValue_zero (k : Word) : leadingValue k 0 = 0 :=
  Nat.div_eq_of_lt k.isLt

@[simp] theorem leadingValue_eight (k : Word) : leadingValue k 8 = k.toNat :=
  Nat.div_one k.toNat

theorem toNat_getElem_toBytes (k : Word) (i : Fin 8) :
    (toBytes k)[i].toNat = k.toNat / 2 ^ (56 - 8 * i.val) % 256 := by
  rw [getElem_toBytes, BitVec.extractLsb'_toNat, Nat.shiftRight_eq_div_pow]

theorem leadingValue_succ (k : Word) (i : Fin 8) :
    leadingValue k (i.val + 1) = 256 * leadingValue k i.val + (toBytes k)[i].toNat := by
  have hhere : 64 - 8 * (i.val + 1) = 56 - 8 * i.val := by omega
  have hbefore : 64 - 8 * i.val = (56 - 8 * i.val) + 8 := by omega
  rw [leadingValue, leadingValue, toNat_getElem_toBytes, hhere, hbefore, Nat.pow_add,
    ← Nat.div_div_eq_div_mul]
  exact (Nat.div_add_mod _ 256).symm

theorem leadingValue_congr {k1 k2 : Word} {n : Nat} (hn : n ≤ 8)
    (heq : ∀ j : Fin 8, j.val < n → (toBytes k1)[j] = (toBytes k2)[j]) :
    leadingValue k1 n = leadingValue k2 n := by
  induction n with
  | zero => simp
  | succ n ih =>
    have hprefix := ih (by omega) fun j hj => heq j (by omega)
    have hbyte := heq ⟨n, hn⟩ n.lt_succ_self
    rw [leadingValue_succ k1 ⟨n, hn⟩, leadingValue_succ k2 ⟨n, hn⟩, hprefix, hbyte]

theorem toBytes_inj {k1 k2 : Word} : toBytes k1 = toBytes k2 ↔ k1 = k2 := by
  refine ⟨fun h => BitVec.eq_of_toNat_eq ?_, congrArg toBytes⟩
  simpa using leadingValue_congr (k1 := k1) (k2 := k2) le_rfl fun j _ => by rw [h]

/-- The first byte that differs makes the leading values differ, and the bytes after it cannot undo that. -/
theorem toNat_lt_of_lexLess {k1 k2 : Word} (h : lexLess (toBytes k1) (toBytes k2) = true) :
    k1.toNat < k2.toNat := by
  obtain ⟨i, hbefore, hlt⟩ := lexLess_iff.mp h
  have hprefix : leadingValue k1 i.val = leadingValue k2 i.val := leadingValue_congr i.isLt.le hbefore
  have hleading : leadingValue k1 (i.val + 1) < leadingValue k2 (i.val + 1) := by
    rw [leadingValue_succ, leadingValue_succ, hprefix]
    exact Nat.add_lt_add_left hlt _
  exact Nat.lt_of_div_lt_div hleading

theorem lexLess_or_lexLess_of_ne {a b : Vector Byte 8} (hne : a ≠ b) :
    lexLess a b = true ∨ lexLess b a = true := by
  obtain ⟨i, hi⟩ := Option.ne_none_iff_exists'.mp (mt firstDifference_eq_none_iff.mp hne)
  obtain ⟨hdiff, hbefore⟩ := firstDifference_eq_some_iff.mp hi
  rcases Nat.lt_or_gt_of_ne (mt BitVec.eq_of_toNat_eq hdiff) with hlt | hgt
  · exact .inl (lexLess_iff.mpr ⟨i, hbefore, hlt⟩)
  · exact .inr (lexLess_iff.mpr ⟨i, fun j hj => (hbefore j hj).symm, hgt⟩)

theorem lexLess_toBytes_iff {k1 k2 : Word} :
    lexLess (toBytes k1) (toBytes k2) = true ↔ k1.toNat < k2.toNat := by
  refine ⟨toNat_lt_of_lexLess, fun hlt => ?_⟩
  have hne : toBytes k1 ≠ toBytes k2 := fun h => hlt.ne (congrArg BitVec.toNat (toBytes_inj.mp h))
  rcases lexLess_or_lexLess_of_ne hne with hbelow | habove
  · exact hbelow
  · exact absurd (toNat_lt_of_lexLess habove) hlt.asymm

/-- Settles O16: both orders are decided by the most significant byte that differs. -/
theorem lexicographicOrderIsUnsignedOrder : Obligations.LexicographicOrderIsUnsignedOrder :=
  fun _ _ => ⟨lexLess_toBytes_iff, toBytes_inj⟩

/-- Settles O14: the byte view is R31's formula, read at every index, at the two ends, and on the worked
example. -/
theorem bytesAreMostSignificantFirst : Obligations.BytesAreMostSignificantFirst :=
  ⟨getElem_toBytes, fun k => ⟨getElem_toBytes k 0, getElem_toBytes k 7⟩, by decide⟩

end Sys2Proof.Machine
end

section
/-! PROOFS. The frame of ENCODE and of a sample, and ENCODE applied again (20_memory R37). -/

namespace Sys2Proof.Machine

theorem hostSample_eq_next_iff {s t : State} :
    hostSample s = .next t ↔ ∃ w, s.applied = some w ∧ t = s.observe w := by
  unfold hostSample
  cases s.applied with
  | none => simp
  | some w => simp [eq_comm]

@[simp] theorem State.observe_keyBytes (s : State) (w : Word) : (s.observe w).keyBytes = s.keyBytes := rfl

/-- Settles O9: the state after ENCODE is a drive and an observation, and the rules of these two updates
say what each field holds. -/
theorem encodeFrame : Obligations.EncodeFrame := by
  intro f s t h
  rw [exec_encode] at h
  cases h
  simp

/-- Settles O30: the second ENCODE drives the word that is on the port already, so that it adds only the
same pair; a sample is an observation, which adds a pair and touches no port. -/
theorem encodeIsRepeatable : Obligations.EncodeIsRepeatable := by
  constructor
  · intro f s
    refine ⟨_, _, exec_encode f s, exec_encode f _, ?_⟩
    simp
  · intro s t h
    obtain ⟨w, -, rfl⟩ := hostSample_eq_next_iff.mp h
    simp

end Sys2Proof.Machine
end

section
/-! PROOFS. The decoder and the assembler of input words (30_encoding R45, R47, R52, R54): which bits the
decoder accepts, and that each of the two undoes the other. -/

namespace Sys2Proof

/-- Assembling the fields and taking the word apart again gives the fields. -/
@[simp] theorem F64In.ofWord_word (f : F64In) : F64In.ofWord f.word = f := by
  have hsign : f.word.extractLsb' 63 1 = f.sign :=
    (BitVec.extractLsb'_append_eq_of_le (by decide)).trans BitVec.extractLsb'_append_eq_left
  have hexp : f.word.extractLsb' 52 11 = f.exp :=
    (BitVec.extractLsb'_append_eq_of_le (by decide)).trans BitVec.extractLsb'_append_eq_right
  have hfrac : f.word.extractLsb' 0 52 = f.frac := BitVec.extractLsb'_append_eq_right
  rw [F64In.ofWord, hsign, hexp, hfrac]

@[simp] theorem decode_encodeInstr (i : Instr) : decode (encodeInstr i) = i := by
  cases i with
  | encode f => exact congrArg Instr.encode f.ofWord_word

@[simp] theorem encodeInstr_decode (w : Word) : encodeInstr (decode w) = w :=
  Machine.word_ofWord w

theorem encodeInstr_injective : Function.Injective encodeInstr :=
  Function.LeftInverse.injective decode_encodeInstr

@[simp] theorem encodeRowSelects_eq_true (w : Word) : encodeRowSelects w = true := by
  simp [encodeRowSelects, encodeRowMask, encodeRowMatch]

theorem decodeInput_of_ne {n : Nat} (hn : n ≠ 64) (w : Nat) :
    decodeInput n w = .error (.notSixtyFourBits n) :=
  if_pos hn

@[simp] theorem decodeInput_toNat (w : Word) : decodeInput 64 w.toNat = .ok (decode w) := by
  simp [decodeInput, Config.inputBits, w.isLt]

theorem decodeInput_of_le {w : Nat} (hw : 2 ^ 64 ≤ w) : decodeInput 64 w = .error (.valueTooWide 64 w) :=
  (if_neg (not_not.mpr rfl)).trans (if_pos hw.not_gt)

/-- The decoder accepts exactly the 64-bit words. -/
theorem decodeInput_eq_ok_iff {n w : Nat} {i : Instr} :
    decodeInput n w = .ok i ↔ n = 64 ∧ ∃ v : Word, v.toNat = w ∧ decode v = i := by
  constructor
  · intro h
    obtain rfl : n = 64 := by
      by_contra hn
      rw [decodeInput_of_ne hn] at h
      cases h
    rcases Nat.lt_or_ge w (2 ^ 64) with hlt | hge
    · have haccepted := decodeInput_toNat (BitVec.ofNatLT w hlt)
      rw [BitVec.toNat_ofNatLT, h] at haccepted
      exact ⟨rfl, BitVec.ofNatLT w hlt, BitVec.toNat_ofNatLT w hlt, (Except.ok.inj haccepted).symm⟩
    · rw [decodeInput_of_le hge] at h
      cases h
  · rintro ⟨rfl, v, rfl, rfl⟩
    exact decodeInput_toNat v

@[simp] theorem decodeTableWord_toNat (w : Word) : decodeTableWord 64 w.toNat = some (decode w) := by
  have hfits : 64 ≤ Config.inputBits ∧ w.toNat < 2 ^ 64 := ⟨le_rfl, w.isLt⟩
  rw [decodeTableWord, if_pos hfits]
  exact congrArg Except.toOption (decodeInput_toNat w)

/-- Settles O3: the decoder accepts the 64-bit words and nothing else, and on these `decode` and
`encodeInstr` are inverse to each other. -/
theorem decodeAndEncodeAgree : Obligations.DecodeAndEncodeAgree := by
  refine ⟨fun i _ => ?_, encodeInstr_decode, fun n w i h => ?_, fun i j h => encodeInstr_injective h⟩
  · rw [decodeInput_toNat, decodeTableWord_toNat, decode_encodeInstr]
    exact ⟨rfl, rfl, rfl⟩
  · obtain ⟨hn, v, hv, rfl⟩ := decodeInput_eq_ok_iff.mp h
    rw [encodeInstr_decode]
    exact ⟨hn, hv⟩

/-- Settles O1: the row's mask is 0, so that it selects every word; the width is all that is checked. -/
theorem everyInputWordDecodesToEncode : Obligations.EveryInputWordDecodesToEncode := by
  refine ⟨rfl, rfl, fun w => ⟨encodeRowSelects_eq_true w, decodeInput_toNat w⟩, fun i => ?_,
    fun _ w hn => decodeInput_of_ne hn w⟩
  cases i with
  | encode f => exact ⟨f, rfl⟩

/-- Settles O4: the fields are cut out of three closed words. -/
theorem knownWordsDecode : Obligations.KnownWordsDecode := by
  unfold Obligations.KnownWordsDecode
  decide

end Sys2Proof
end

section
/-! PROOFS. The sign mask of ENCODE (30_encoding R48, R49) and the format of the key (R46). -/

namespace Sys2Proof.Machine

/-- The mask of 30_encoding R49, `{64{s}} OR 0x8000000000000000`, for the sign `s` of an input. -/
def signMask (sign : Bool) : Word := BitVec.replicate 64 (BitVec.ofBool sign) ||| 0x8000000000000000

theorem getLsbD_replicate_ofBool (b : Bool) {n j : Nat} (hj : j < n) :
    (BitVec.replicate n (BitVec.ofBool b)).getLsbD j = b := by
  simp [Nat.mod_one, hj]

theorem signMask_true : signMask true = 0xFFFFFFFFFFFFFFFF := by
  have hones : BitVec.replicate 64 (BitVec.ofBool true) = BitVec.allOnes 64 :=
    BitVec.eq_of_getLsbD_eq fun j hj => by
      rw [getLsbD_replicate_ofBool true hj, BitVec.getLsbD_allOnes, decide_eq_true hj]
  rw [signMask, hones]
  rfl

theorem signMask_false : signMask false = 0x8000000000000000 := by
  have hzero : BitVec.replicate 64 (BitVec.ofBool false) = 0#64 :=
    BitVec.eq_of_getLsbD_eq fun j hj => by
      rw [getLsbD_replicate_ofBool false hj, BitVec.getLsbD_zero]
  rw [signMask, hzero]
  rfl

/-- Both paths are one XOR: complementing is the XOR with all ones. -/
theorem encodeKey_eq_xor_signMask (w : Word) : encodeKey w = w ^^^ signMask w[63] := by
  cases h : w[63] with
  | true => rw [signMask_true, encodeKey_of_sign h]; exact BitVec.xor_allOnes.symm
  | false => rw [signMask_false, encodeKey_of_not_sign h]

/-- The bits ENCODE inverts. -/
theorem encodeKey_xor_self (w : Word) : encodeKey w ^^^ w = signMask w[63] := by
  rw [encodeKey_eq_xor_signMask, BitVec.xor_comm w, BitVec.xor_assoc, BitVec.xor_self, BitVec.xor_zero]

@[simp] theorem getElem_encodeKey_sign (w : Word) : (encodeKey w)[63] = !w[63] := by
  cases h : w[63] with
  | true => simp [encodeKey_of_sign h, h]
  | false => simp [encodeKey_of_not_sign h, h]

theorem getLsbD_encodeKey_of_lt (w : Word) {j : Nat} (hj : j < 63) :
    (encodeKey w).getLsbD j = (w.getLsbD j ^^ w[63]) := by
  cases h : w[63] with
  | true =>
    have hj64 : j < 64 := by omega
    simp [encodeKey_of_sign h, hj64]
  | false =>
    have hflip : (0x8000000000000000 : Word) = BitVec.twoPow 64 63 := rfl
    have hne : 63 ≠ j := hj.ne'
    simp [encodeKey_of_not_sign h, hflip, hne]

/-- Settles O11: the two values of the mask are the two paths. -/
theorem encodeIsXorWithTheSignMask : Obligations.EncodeIsXorWithTheSignMask :=
  ⟨encodeKey_eq_xor_signMask,
   fun _ h => (congrArg signMask h).trans signMask_true,
   fun _ h => (congrArg signMask h).trans signMask_false,
   getElem_encodeKey_sign,
   fun w _ hj => getLsbD_encodeKey_of_lt w hj⟩

/-- Settles O10: the inverted bits are the sign mask, which is a function of bit 63. -/
theorem signBitAloneSelectsThePath : Obligations.SignBitAloneSelectsThePath := by
  refine ⟨fun _ => encodeKey_of_sign, fun _ => encodeKey_of_not_sign, fun v w h => ?_⟩
  rw [encodeKey_xor_self, encodeKey_xor_self, h]

@[simp] theorem classBit_encodeKey (w : Word) : classBit (encodeKey w) = !w[63] :=
  getElem_encodeKey_sign w

@[simp] theorem orderField_complement (w : Word) : orderField (~~~w) = ~~~(orderField w) :=
  BitVec.extractLsb'_not_of_lt (by decide)

@[simp] theorem orderField_xor_sign (w : Word) :
    orderField (w ^^^ 0x8000000000000000) = orderField w := by
  have hmask : BitVec.extractLsb' 0 63 (0x8000000000000000 : Word) = 0#63 := by decide
  rw [orderField, BitVec.extractLsb'_xor, hmask, BitVec.xor_zero, orderField]

/-- Settles O12: a path per sign for the order field, and the byte view of any key. -/
theorem keyFormat : Obligations.KeyFormat := by
  refine fun w => ⟨classBit_encodeKey w, fun h => ?_, fun h => ?_, getElem_toBytes (encodeKey w)⟩
  · rw [encodeKey_of_not_sign h]
    exact orderField_xor_sign w
  · rw [encodeKey_of_sign h]
    exact orderField_complement w

end Sys2Proof.Machine
end

section
/-! PROOFS. The host's sorts (30_encoding R55) are insertion sorts by a rank: they ascend by it, and pairs of
one rank keep list order. -/

namespace Sys2Proof.Machine

section Rank

/- `below` compares a rank, at least on the pairs of the list at hand. -/
variable {α : Type} [LinearOrder α] {rank : Observation → α} {below : Observation → Observation → Bool}

theorem insertBy_eq_orderedInsert {x : Observation} {l : List Observation}
    (h : ∀ y ∈ l, below y x = true ↔ rank y < rank x) :
    insertBy below x l = l.orderedInsert (rank ⁻¹'o (· ≤ ·)) x := by
  induction l with
  | nil => rfl
  | cons y ys ih =>
    have hy : below y x = true ↔ rank y < rank x := h y List.mem_cons_self
    rw [insertBy, ih fun z hz => h z (List.mem_cons_of_mem y hz)]
    by_cases hlt : rank y < rank x
    · rw [if_pos (hy.mpr hlt)]
      exact (List.orderedInsert_of_not_le (rank ⁻¹'o (· ≤ ·)) ys hlt.not_ge).symm
    · rw [if_neg (mt hy.mp hlt)]
      exact (List.orderedInsert_cons_of_le (rank ⁻¹'o (· ≤ ·)) ys (not_lt.mp hlt)).symm

theorem sortBy_eq_insertionSort {l : List Observation}
    (h : ∀ a ∈ l, ∀ b ∈ l, below a b = true ↔ rank a < rank b) :
    sortBy below l = l.insertionSort (rank ⁻¹'o (· ≤ ·)) := by
  induction l with
  | nil => rfl
  | cons x xs ih =>
    have hxs := ih fun a ha b hb => h a (List.mem_cons_of_mem x ha) b (List.mem_cons_of_mem x hb)
    have hx : ∀ y ∈ sortBy below xs, below y x = true ↔ rank y < rank x := fun y hy =>
      h y (List.mem_cons_of_mem x ((sortBy_perm below xs).mem_iff.mp hy)) x List.mem_cons_self
    rw [sortBy, insertBy_eq_orderedInsert hx, hxs, List.insertionSort_cons]

theorem sortBy_pairwise_rank_le {l : List Observation}
    (h : ∀ a ∈ l, ∀ b ∈ l, below a b = true ↔ rank a < rank b) :
    (sortBy below l).Pairwise fun a b => rank a ≤ rank b := by
  rw [sortBy_eq_insertionSort h]
  exact List.pairwise_insertionSort (rank ⁻¹'o (· ≤ ·)) l

/-- A sort is stable: the pairs of one rank are a sorted sublist of the list, which an insertion sort keeps. -/
theorem filter_sortBy {l : List Observation} {p : Observation → Bool}
    (h : ∀ a ∈ l, ∀ b ∈ l, below a b = true ↔ rank a < rank b)
    (hp : ∀ a b, p a = true → p b = true → rank a = rank b) :
    (sortBy below l).filter p = l.filter p := by
  have hsorted : (l.filter p).Pairwise (rank ⁻¹'o (· ≤ ·)) :=
    List.pairwise_of_forall_mem_list fun a ha b hb =>
      (hp a b (List.mem_filter.mp ha).2 (List.mem_filter.mp hb).2).le
  have hsublist : (l.filter p).Sublist ((sortBy below l).filter p) := by
    have hkept := (List.sublist_insertionSort hsorted List.filter_sublist).filter p
    rw [← sortBy_eq_insertionSort h, List.filter_filter] at hkept
    simpa using hkept
  exact (hsublist.eq_of_length ((sortBy_perm below l).filter p).length_eq.symm).symm

end Rank

theorem keyBelow_iff {a b : Observation} : keyBelow a b = true ↔ a.key.toNat < b.key.toNat :=
  lexLess_toBytes_iff

/-- Settles O36: SORT_BY_KEY sorts by the key as an unsigned integer. -/
theorem sortByKeySortsStably : Obligations.SortByKeySortsStably := by
  intro l
  have hrank : ∀ a ∈ l, ∀ b ∈ l, keyBelow a b = true ↔ a.key.toNat < b.key.toNat :=
    fun _ _ _ _ => keyBelow_iff
  refine ⟨sortBy_perm keyBelow l, sortBy_pairwise_rank_le hrank, fun k => filter_sortBy hrank ?_⟩
  intro a b ha hb
  rw [beq_iff_eq.mp ha, beq_iff_eq.mp hb]

end Sys2Proof.Machine
end

section
/-! PROOFS. Numeric order as a linear order: the rationals with an infinity at either end (00_scope R18), and
SORT_BY_VALUE as a sort by it (30_encoding R55). -/

namespace Sys2Proof.Machine

/-- The place of a value in the linear order of the rationals with an infinity at either end. -/
def Value.rank : Value → WithBot (WithTop Rat)
  | .negInfinity => ⊥
  | .finite q => ((q : WithTop Rat) : WithBot (WithTop Rat))
  | .posInfinity => ((⊤ : WithTop Rat) : WithBot (WithTop Rat))

theorem Value.less_iff_rank_lt {x y : Value} : x.less y = true ↔ x.rank < y.rank := by
  cases x <;> cases y <;> simp [Value.less, Value.rank, WithBot.coe_lt_coe, -WithBot.coe_top]

theorem Value.rank_inj {x y : Value} : x.rank = y.rank ↔ x = y := by
  cases x <;> cases y <;> simp [Value.rank, -WithBot.coe_top]

/-- Every pattern but a NaN has a value (00_scope R18). -/
theorem isNaN_eq_false_iff {w : Word} : isNaN w = false ↔ ∃ v, val w = some v := by
  unfold isNaN val
  by_cases hexp : exponentOf w = 0x7FF
  · by_cases hfrac : fractionOf w = 0
    · cases signBit w <;> simp [hexp, hfrac]
    · simp [hexp, hfrac]
  · cases signBit w <;> simp [hexp]

/-- The place of a pattern's value; where a NaN is put is of no account. -/
def valueRank (w : Word) : WithBot (WithTop Rat) := (val w).elim ⊥ Value.rank

theorem numLess_iff_valueRank_lt {a b : Word} (ha : isNaN a = false) (hb : isNaN b = false) :
    numLess a b = true ↔ valueRank a < valueRank b := by
  obtain ⟨x, hx⟩ := isNaN_eq_false_iff.mp ha
  obtain ⟨y, hy⟩ := isNaN_eq_false_iff.mp hb
  simp [numLess, valueRank, hx, hy, Value.less_iff_rank_lt]

/-- Numeric equality is false of a NaN, and otherwise equality of the values. -/
theorem numEqual_iff {a b : Word} :
    numEqual a b = true ↔ isNaN a = false ∧ isNaN b = false ∧ valueRank a = valueRank b := by
  unfold numEqual
  rw [isNaN_eq_false_iff, isNaN_eq_false_iff]
  cases hx : val a with
  | none => simp
  | some x =>
    cases hy : val b with
    | none => simp
    | some y => simp [valueRank, hx, hy, Value.rank_inj]

/-- A sort by value is a sort by the place of the value, on pairs that have one. -/
theorem valueBelow_iff_of_ordered {l : List Observation} (h : ∀ o ∈ l, isNaN o.input = false) :
    ∀ a ∈ l, ∀ b ∈ l, valueBelow a b = true ↔ valueRank a.input < valueRank b.input :=
  fun a ha b hb => numLess_iff_valueRank_lt (h a ha) (h b hb)

theorem isNaN_of_mem_filter_ordered {l : List Observation} :
    ∀ o ∈ l.filter (fun o => !o.unordered), isNaN o.input = false := by
  simp [Observation.unordered]

theorem filter_sortByValue_pairwise (draw : Nat) (l : List Observation) :
    ((sortByValue draw l).filter fun o => !o.unordered).Pairwise
      fun a b => numLess a.input b.input = true ∨ numEqual a.input b.input = true := by
  have hvalue := isNaN_of_mem_filter_ordered (l := sortByValue draw l)
  have hsorted : ((sortByValue draw l).filter fun o => !o.unordered).Pairwise
      fun a b => valueRank a.input ≤ valueRank b.input := by
    rw [filter_sortByValue]
    exact sortBy_pairwise_rank_le (valueBelow_iff_of_ordered isNaN_of_mem_filter_ordered)
  refine hsorted.imp_of_mem fun ha hb hle => ?_
  rcases hle.lt_or_eq with hlt | heq
  · exact .inl ((numLess_iff_valueRank_lt (hvalue _ ha) (hvalue _ hb)).mpr hlt)
  · exact .inr (numEqual_iff.mpr ⟨hvalue _ ha, hvalue _ hb, heq⟩)

/-- The pairs of one value are among those that have a value, where the sort keeps their order. -/
theorem filter_numEqual_sortByValue (draw : Nat) (l : List Observation) (x : Word) :
    (sortByValue draw l).filter (fun o => numEqual o.input x) = l.filter fun o => numEqual o.input x := by
  have hrestrict : ∀ m : List Observation,
      m.filter (fun o => numEqual o.input x) =
        (m.filter fun o => !o.unordered).filter fun o => numEqual o.input x := by
    intro m
    rw [List.filter_filter]
    refine List.filter_congr fun o _ => ?_
    rw [eq_comm, Bool.and_eq_left_iff_imp]
    intro heq
    obtain ⟨hnan, -, -⟩ := numEqual_iff.mp heq
    simp [Observation.unordered, hnan]
  rw [hrestrict, filter_sortByValue, hrestrict l]
  refine filter_sortBy (valueBelow_iff_of_ordered isNaN_of_mem_filter_ordered) fun a b ha hb => ?_
  obtain ⟨-, -, hax⟩ := numEqual_iff.mp ha
  obtain ⟨-, -, hbx⟩ := numEqual_iff.mp hb
  exact hax.trans hbx.symm

/-- Settles O37: the pairs that have a value are sorted by it, and placing the NaN pairs leaves their
sublist as it is. -/
theorem sortByValueSortsStably : Obligations.SortByValueSortsStably := by
  refine fun draw l => ⟨sortByValue_perm draw l, filter_sortByValue_pairwise draw l,
    filter_numEqual_sortByValue draw l, fun h draw' => ?_⟩
  exact (sortByValue_of_ordered h draw').1.trans (sortByValue_of_ordered h draw).1.symm

end Sys2Proof.Machine
end

section
/-! PROOFS. What the operands of the host's steps name and what the steps yield (30_encoding R55, 20_memory
R35). -/

namespace Sys2Proof.Machine

@[simp] theorem evalKey_word (s : State) (k : Word) : evalKey s (.word k) = .ok k := rfl

theorem evalKey_sampled {s : State} {i : Nat} {o : Observation} (h : s.pairs[i]? = some o) :
    evalKey s (.sampled i) = .ok o.key := by
  simp only [evalKey, h]

theorem evalKey_sampled_of_le {s : State} {i : Nat} (h : s.pairs.length ≤ i) :
    evalKey s (.sampled i) = .error (.noSuchPair i) := by
  simp only [evalKey, List.getElem?_eq_none h]

@[simp] theorem evalList_pairs (s : State) (d : Nat) : evalList s d .pairs = .ok (s.pairs, d) := rfl

theorem evalList_result {s : State} {i : Nat} {l : List Observation}
    (h : s.results[i]? = some (.order l)) (d : Nat) : evalList s d (.result i) = .ok (l, d) := by
  simp only [evalList, h]

theorem evalList_result_of_le {s : State} {i : Nat} (h : s.results.length ≤ i) (d : Nat) :
    evalList s d (.result i) = .error (.noSuchOrder i) := by
  simp only [evalList, List.getElem?_eq_none h]

theorem evalList_sortByKey {s : State} {d d' : Nat} {e : ListExpr} {l : List Observation}
    (h : evalList s d e = .ok (l, d')) : evalList s d (.sortByKey e) = .ok (sortByKey l, d') := by
  simp only [evalList, h]

theorem evalList_sortByValue {s : State} {d d' : Nat} {e : ListExpr} {l : List Observation}
    (h : evalList s d e = .ok (l, d')) :
    evalList s d (.sortByValue e) = .ok (sortByValue d' l, d' + sortByValueDraws l) := by
  simp only [evalList, h]

/-- Settles O45: an equation per operand form. -/
theorem hostOperandFormsNameWhatTheySay : Obligations.HostOperandFormsNameWhatTheySay :=
  ⟨evalKey_word,
   fun _ _ _ => evalKey_sampled,
   fun _ _ => evalKey_sampled_of_le,
   evalList_pairs,
   fun _ d _ _ h => evalList_result h d,
   fun _ d _ h => evalList_result_of_le h d,
   fun _ _ _ _ _ h => ⟨evalList_sortByKey h, evalList_sortByValue h⟩⟩

theorem lexCompare_eq_lt_iff {a b : Vector Byte 8} : lexCompare a b = .lt ↔ lexLess a b = true :=
  beq_iff_eq.symm

theorem lexCompare_eq_eq_iff {a b : Vector Byte 8} : lexCompare a b = .eq ↔ a = b := by
  rw [← firstDifference_eq_none_iff]
  unfold lexCompare
  cases firstDifference a b with
  | none => simp
  | some i =>
    dsimp only
    split <;> simp

/-- Comparing the bytes of two keys is comparing the keys as unsigned integers (20_memory R33). -/
theorem lexCompare_toBytes (k1 k2 : Word) :
    lexCompare (toBytes k1) (toBytes k2) =
      if k1.toNat < k2.toNat then .lt else if k1 = k2 then .eq else .gt := by
  have hlt := lexCompare_eq_lt_iff.trans (lexLess_toBytes_iff (k1 := k1) (k2 := k2))
  have heq := lexCompare_eq_eq_iff.trans (toBytes_inj (k1 := k1) (k2 := k2))
  split_ifs with h1 h2
  · exact hlt.mpr h1
  · exact heq.mpr h2
  · cases h : lexCompare (toBytes k1) (toBytes k2) with
    | lt => exact absurd (hlt.mp h) h1
    | eq => exact absurd (heq.mp h) h2
    | gt => rfl

/-- UNKEY undoes ENCODE: the class bit of the key says which path made it (40_encode R64). -/
@[simp] theorem unkey_encodeKey (w : Word) : unkey (encodeKey w) = w := by
  unfold unkey
  rw [classBit_encodeKey]
  cases h : w[63] with
  | true => simp [encodeKey_of_sign h]
  | false => simp [encodeKey_of_not_sign h]

theorem runHostStep_lexcmp {s : State} {a b : KeyExpr} {k1 k2 : Word}
    (ha : evalKey s a = .ok k1) (hb : evalKey s b = .ok k2) :
    runHostStep (.lexcmp a b) s =
      .next (s.addResult (.comparison (lexCompare (toBytes k1) (toBytes k2)))) := by
  simp only [runHostStep, hostLexcmp, ha, hb]

theorem runHostStep_unkey {s : State} {a : KeyExpr} {k : Word} (h : evalKey s a = .ok k) :
    runHostStep (.unkey a) s = .next (s.addResult (.inputWord (unkey k))) := by
  simp only [runHostStep, hostUnkey, h]

theorem runHostStep_storeKey {s : State} {a : KeyExpr} {k : Word} (h : evalKey s a = .ok k) :
    runHostStep (.storeKey a) s = .next (s.addResult (.stored (toBytes k))) := by
  simp only [runHostStep, hostStoreKey, h]

theorem runHostStep_order {s : State} {e : ListExpr} {l : List Observation} {d : Nat}
    (h : evalList s s.draws e = .ok (l, d)) :
    runHostStep (.order e) s = .next ((s.withDraws d).addResult (.order l)) := by
  simp only [runHostStep, hostOrder, h]

theorem runHostStep_assertEqOrder {s : State} {a b : ListExpr} {la lb : List Observation} {d d' : Nat}
    (ha : evalList s s.draws a = .ok (la, d)) (hb : evalList s d b = .ok (lb, d')) :
    runHostStep (.assertEqOrder a b) s = .next (afterCheck (sameOrder la lb) (s.withDraws d')) := by
  simp only [runHostStep, hostAssertEqOrder, ha, hb]

theorem sameOrder_iff {a b : List Observation} :
    sameOrder a b = true ↔ a.map (fun o => o.input) = b.map (fun o => o.input) :=
  beq_iff_eq

theorem afterCheck_sameOrder (la lb : List Observation) (s : State) :
    afterCheck (sameOrder la lb) s =
      if la.map (fun o => o.input) = lb.map (fun o => o.input) then s.addResult (.check true)
      else (s.addResult (.check false)).withProgram [] :=
  if_congr sameOrder_iff rfl rfl

/-- Settles O39: an equation per step, with the comparison of bytes read as one of integers and UNKEY as the
inverse of ENCODE. -/
theorem hostStepsYieldWhatTheirRulesSay : Obligations.HostStepsYieldWhatTheirRulesSay := by
  refine ⟨fun s a b k1 k2 ha hb => ?_, fun s a w h => ?_, fun _ _ _ => runHostStep_storeKey,
    fun s => runHostStep_order (evalList_sortByKey (evalList_pairs s s.draws)),
    fun s => runHostStep_order (evalList_sortByValue (evalList_pairs s s.draws)),
    fun _ _ _ _ => runHostStep_order, fun s a b la lb d d' ha hb => ?_⟩
  · rw [runHostStep_lexcmp ha hb, lexCompare_toBytes]
    rfl
  · rw [runHostStep_unkey h, unkey_encodeKey]
    rfl
  · rw [runHostStep_assertEqOrder ha hb, afterCheck_sameOrder]
    rfl

end Sys2Proof.Machine
end

section
/-! PROOFS. A word is its sign and its bits 62..0 read as an integer, and the key is an integer formula in
these two (40_encode R60). -/

namespace Sys2Proof.Machine

/-- The integer `m = f[62:0]` of 40_encode R60. -/
def magnitude (w : Word) : Nat := (orderField w).toNat

theorem magnitude_lt (w : Word) : magnitude w < 2 ^ 63 := (orderField w).isLt

theorem signBit_eq (w : Word) : signBit w = w[63] := rfl

theorem sign_eq_decide (w : Word) : w[63] = decide (2 ^ 63 ≤ w.toNat) :=
  (BitVec.msb_eq_getLsbD_last w).symm.trans (BitVec.msb_eq_decide w)

theorem magnitude_eq_mod (w : Word) : magnitude w = w.toNat % 2 ^ 63 :=
  BitVec.extractLsb'_toNat 0 63 w

theorem toNat_eq_magnitude (w : Word) :
    w.toNat = magnitude w + if w[63] then 2 ^ 63 else 0 := by
  have hlt := w.isLt
  rw [magnitude_eq_mod, sign_eq_decide]
  simp only [decide_eq_true_eq]
  split_ifs <;> omega

/-- The sign and the bits 62..0 make up the word. -/
theorem eq_of_sign_of_magnitude {a b : Word} (hsign : a[63] = b[63]) (hmag : magnitude a = magnitude b) :
    a = b := by
  apply BitVec.eq_of_toNat_eq
  rw [toNat_eq_magnitude, toNat_eq_magnitude b, hsign, hmag]

theorem magnitude_encodeKey_of_not_sign {w : Word} (h : w[63] = false) :
    magnitude (encodeKey w) = magnitude w := by
  rw [encodeKey_of_not_sign h, magnitude, orderField_xor_sign, magnitude]

theorem magnitude_encodeKey_of_sign {w : Word} (h : w[63] = true) :
    magnitude (encodeKey w) = 2 ^ 63 - 1 - magnitude w := by
  rw [encodeKey_of_sign h, magnitude, orderField_complement, BitVec.toNat_not, magnitude]

/-- The number with the sign of the input and the magnitude `m`: the input's value is an increasing function
of it, and so is the key. -/
def signedMagnitude (w : Word) : Int := if w[63] then -(magnitude w : Int) else magnitude w

theorem signedMagnitude_of_sign {w : Word} (h : w[63] = true) : signedMagnitude w = -(magnitude w : Int) :=
  if_pos h

theorem signedMagnitude_of_not_sign {w : Word} (h : w[63] = false) : signedMagnitude w = magnitude w :=
  if_neg (by simp [h])

/-- The closed form of 40_encode R60, for both signs: complementing puts the keys of sign 1 one below the
reflection of those of sign 0, so that the two zeros keep distinct keys. -/
theorem toNat_encodeKey (w : Word) :
    ((encodeKey w).toNat : Int) = 2 ^ 63 + signedMagnitude w - if w[63] then 1 else 0 := by
  have hlt := magnitude_lt w
  rw [toNat_eq_magnitude, getElem_encodeKey_sign]
  cases h : w[63] with
  | true =>
    rw [magnitude_encodeKey_of_sign h, signedMagnitude_of_sign h, Bool.not_true, if_pos rfl,
      if_neg Bool.false_ne_true]
    omega
  | false =>
    rw [magnitude_encodeKey_of_not_sign h, signedMagnitude_of_not_sign h, Bool.not_false, if_pos rfl,
      if_neg Bool.false_ne_true]
    omega

theorem toNat_encodeKey_of_not_sign {w : Word} (h : w[63] = false) :
    (encodeKey w).toNat = 2 ^ 63 + magnitude w := by
  have hkey := toNat_encodeKey w
  rw [signedMagnitude_of_not_sign h, h, if_neg Bool.false_ne_true] at hkey
  omega

theorem toNat_encodeKey_of_sign {w : Word} (h : w[63] = true) :
    (encodeKey w).toNat = 2 ^ 63 - 1 - magnitude w := by
  have hkey := toNat_encodeKey w
  have hlt := magnitude_lt w
  rw [signedMagnitude_of_sign h, h, if_pos rfl] at hkey
  omega

/-- Settles O13: the two halves of the closed form, and their ranges from `m < 2 ^ 63`. -/
theorem closedForm : Obligations.ClosedForm := by
  intro w
  have hlt := magnitude_lt w
  have hm : (w.extractLsb' 0 63).toNat = magnitude w := rfl
  simp only [BitVec.le_def, hm]
  refine ⟨fun h => ?_, fun h => ?_⟩
  · have hkey := toNat_encodeKey_of_not_sign h
    bv_omega
  · have hkey := toNat_encodeKey_of_sign h
    bv_omega

end Sys2Proof.Machine
end

section
/-! PROOFS. ENCODE as an instruction: it completes from every state with the key of its operand, on the path
its sign selects (40_encode R56, R58, R59, R69), and the forms the block lacks are refused (R76). -/

namespace Sys2Proof.Machine

@[simp] theorem State.drive_keyBytes (s : State) (w : Word) :
    (s.drive w).keyBytes = some (toBytes (encodeKey w)) := rfl

theorem getElem_word_sign (f : F64In) : f.word[63] = f.sign[0] := by
  rw [← BitVec.getLsbD_eq_getElem, F64In.getLsbD_word]
  rfl

/-- Settles O6: the state after ENCODE is a drive and an observation, whose ports show the key. -/
theorem encodeGivesTheKey : Obligations.EncodeGivesTheKey := by
  refine ⟨fun f s => ⟨encodeKey f.word, encodeKey_eq f.word, exec_encode f s, fun t ht => ?_⟩,
    by decide, by decide, by decide, by decide⟩
  rw [exec_encode] at ht
  cases ht
  exact ⟨by simp, toBytes (encodeKey f.word), by simp, getElem_toBytes _⟩

/-- Settles O7: ENCODE observes the key, which is the complement. -/
theorem negativePathComplementsAllBits : Obligations.NegativePathComplementsAllBits := by
  refine ⟨fun f s hf => ?_, by decide⟩
  have hsign : f.word[63] = true := by rw [getElem_word_sign, hf]; rfl
  have hclass := classBit_encodeKey f.word
  rw [encodeKey_of_sign hsign, hsign] at hclass
  refine ⟨?_, hclass, orderField_complement f.word⟩
  rw [exec_encode, State.observe, encodeKey_of_sign hsign]
  rfl

/-- Settles O8: ENCODE observes the key, which is the input with bit 63 flipped. -/
theorem nonNegativePathFlipsBit63 : Obligations.NonNegativePathFlipsBit63 := by
  refine ⟨fun f s hf => ?_, by decide⟩
  have hsign : f.word[63] = false := by rw [getElem_word_sign, hf]; rfl
  have hclass := classBit_encodeKey f.word
  rw [encodeKey_of_not_sign hsign, hsign] at hclass
  refine ⟨?_, hclass, orderField_xor_sign f.word⟩
  rw [exec_encode, State.observe, encodeKey_of_not_sign hsign]
  rfl

/-- Settles O25: what is on the ports and what is observed are functions of the driven word alone. -/
theorem encodeIsDeterministicAndOfFixedWidth : Obligations.EncodeIsDeterministicAndOfFixedWidth := by
  intro w s1 s2
  refine ⟨_, _, exec_decode w s1, exec_decode w s2, ?_⟩
  simp

theorem step_of_program_cons {s : State} {h : HostStep} {rest : List HostStep}
    (hp : s.program = h :: rest) : step s = runHostStep h (s.withProgram rest) := by
  rw [step, hp]

/-- Settles O35: a step runs the head of the program, and both requests are refused as host steps. -/
theorem formsTheBlockLacksAreRefused : Obligations.FormsTheBlockLacksAreRefused :=
  ⟨fun _ _ _ hp => step_of_program_cons hp, fun _ _ _ hp => step_of_program_cons hp⟩

end Sys2Proof.Machine
end

section
/-! PROOFS. ENCODE is a bijection (40_encode R64), and what it does to complements (95_test_vectors V31, V32). -/

namespace Sys2Proof.Machine

theorem unkey_of_classBit {k : Word} (h : k[63] = true) : unkey k = k ^^^ 0x8000000000000000 :=
  if_pos h

theorem unkey_of_not_classBit {k : Word} (h : k[63] = false) : unkey k = ~~~k :=
  if_neg (by simp [classBit, h])

@[simp] theorem encodeKey_unkey (k : Word) : encodeKey (unkey k) = k := by
  cases h : k[63] with
  | true =>
    rw [unkey_of_classBit h, encodeKey_of_not_sign (by simp [h]), BitVec.xor_assoc, BitVec.xor_self,
      BitVec.xor_zero]
  | false => rw [unkey_of_not_classBit h, encodeKey_of_sign (by simp [h]), BitVec.not_not]

theorem encodeKey_inj {a b : Word} : encodeKey a = encodeKey b ↔ a = b :=
  (Function.LeftInverse.injective unkey_encodeKey).eq_iff

/-- Settles O20: the host's UNKEY is a left and a right inverse of ENCODE. -/
theorem encodeIsABijection : Obligations.EncodeIsABijection :=
  ⟨fun _ => unkey_of_classBit, fun _ => unkey_of_not_classBit, unkey_encodeKey, encodeKey_unkey,
   ⟨Function.LeftInverse.injective unkey_encodeKey, Function.RightInverse.surjective encodeKey_unkey⟩,
   fun _ _ => rfl⟩

/-- Settles O26: the complement takes the other path, so that the complement of one and the flipped bit 63
of the other meet. -/
theorem complementaryInputsDifferInBit63 : Obligations.ComplementaryInputsDifferInBit63 := by
  intro w
  cases h : w[63] with
  | true => rw [encodeKey_of_sign h, encodeKey_of_not_sign (by simp [h])]
  | false =>
    rw [encodeKey_of_not_sign h, encodeKey_of_sign (by simp [h]), BitVec.not_not, BitVec.xor_assoc,
      BitVec.xor_self, BitVec.xor_zero]

end Sys2Proof.Machine
end

section
/-! PROOFS. The exponent and fraction fields, and the classes of 30_encoding R53, as ranges of the magnitude;
the keys of zeros, subnormals, infinities and NaNs (40_encode R61 to R63). -/

namespace Sys2Proof.Machine

theorem fractionOf_lt (w : Word) : fractionOf w < 2 ^ 52 := (F64In.ofWord w).frac.isLt

theorem exponentOf_lt (w : Word) : exponentOf w < 2 ^ 11 := (F64In.ofWord w).exp.isLt

/-- Bits 62..0 are the exponent field above the fraction field. -/
theorem magnitude_eq_fields (w : Word) : magnitude w = exponentOf w * 2 ^ 52 + fractionOf w := by
  have hexp : exponentOf w = w.toNat / 2 ^ 52 % 2 ^ 11 := by
    rw [exponentOf, F64In.ofWord, BitVec.extractLsb'_toNat, Nat.shiftRight_eq_div_pow]
  have hfrac : fractionOf w = w.toNat % 2 ^ 52 := BitVec.extractLsb'_toNat 0 52 w
  rw [magnitude_eq_mod, hexp, hfrac]
  omega

/-- The lowest and the highest magnitude of each class of 30_encoding R53. -/
def classMagnitudes : InputClass → Nat × Nat
  | .zero => (0, 0)
  | .subnormal => (1, 2 ^ 52 - 1)
  | .normal => (2 ^ 52, 0x7FF * 2 ^ 52 - 1)
  | .infinity => (0x7FF * 2 ^ 52, 0x7FF * 2 ^ 52)
  | .nan => (0x7FF * 2 ^ 52 + 1, 2 ^ 63 - 1)

theorem magnitude_mem_classMagnitudes (w : Word) :
    (classMagnitudes (classOf w)).1 ≤ magnitude w ∧ magnitude w ≤ (classMagnitudes (classOf w)).2 := by
  have hm := magnitude_eq_fields w
  have he := exponentOf_lt w
  have ht := fractionOf_lt w
  unfold classOf
  split_ifs <;> simp only [classMagnitudes] <;> omega

theorem isNaN_iff_classOf {w : Word} : isNaN w = true ↔ classOf w = .nan := by
  rw [isNaN, classOf]
  split_ifs <;> simp [*]

theorem isNaN_eq_true_iff {w : Word} : isNaN w = true ↔ 0x7FF * 2 ^ 52 < magnitude w := by
  have hm := magnitude_eq_fields w
  have he := exponentOf_lt w
  have ht := fractionOf_lt w
  simp only [isNaN, Bool.and_eq_true, beq_iff_eq, bne_iff_ne]
  omega

theorem magnitude_le_of_not_isNaN {w : Word} (h : isNaN w = false) : magnitude w ≤ 0x7FF * 2 ^ 52 := by
  rwa [← Bool.not_eq_true, isNaN_eq_true_iff, not_lt] at h

/-- Settles O17: the patterns from an infinity on have its sign, which selects the path, and the closed form
gives the ranges. -/
theorem infinityAndNaNKeys : Obligations.InfinityAndNaNKeys := by
  refine ⟨by decide, by decide, fun w hw => ?_, fun w hlow hhigh => ?_, fun w s _ => ?_⟩
  · have hsign : w[63] = true := (sign_eq_decide w).trans (decide_eq_true (by bv_omega))
    have hinf : encodeKey 0xFFF0000000000000 = 0x000FFFFFFFFFFFFF := by decide
    have hkey := encodeKey_of_sign hsign
    rw [hinf, hkey]
    refine ⟨rfl, ?_, ?_⟩ <;> bv_omega
  · have hsign : w[63] = false := (sign_eq_decide w).trans (decide_eq_false (by bv_omega))
    have hinf : encodeKey 0x7FF0000000000000 = 0xFFF0000000000000 := by decide
    have hmag := toNat_eq_magnitude w
    have hkey := toNat_encodeKey_of_not_sign hsign
    rw [hsign, if_neg Bool.false_ne_true] at hmag
    rw [hinf]
    refine ⟨encodeKey_of_not_sign hsign, ?_, ?_⟩ <;> bv_omega
  · rw [exec_decode, State.observe, encodeKey_eq]
    rfl

/-- Settles O18: the rule's two closed keys. -/
theorem signedZeroKeys : Obligations.SignedZeroKeys := by
  have hplus : encodeKey 0x0000000000000000 = 0x8000000000000000 := by decide
  have hminus : encodeKey 0x8000000000000000 = 0x7FFFFFFFFFFFFFFF := by decide
  refine ⟨hplus, hminus, ?_⟩
  rw [hplus, hminus]
  decide

/-- Settles O19: a subnormal's magnitude is from 1 to `2 ^ 52 - 1`, and the closed form gives its key. -/
theorem subnormalKeys : Obligations.SubnormalKeys := by
  have hrange : ∀ {w : Word}, classOf w = .subnormal → 1 ≤ magnitude w ∧ magnitude w ≤ 2 ^ 52 - 1 := by
    intro w hw
    have hmem := magnitude_mem_classMagnitudes w
    rwa [hw] at hmem
  refine ⟨fun w hw hsign => ?_, fun w hw hsign => ?_, by decide, by decide, by decide, by decide⟩
  · have hm := hrange hw
    have hkey := toNat_encodeKey_of_not_sign hsign
    refine ⟨encodeKey_of_not_sign hsign, ?_, ?_⟩ <;> bv_omega
  · have hm := hrange hw
    have hkey := toNat_encodeKey_of_sign hsign
    refine ⟨encodeKey_of_sign hsign, ?_, ?_⟩ <;> bv_omega

end Sys2Proof.Machine
end

section
/-! PROOFS. Numeric order (00_scope R18) is the order of the signed magnitudes, infinities included (40_encode
R66, its derivation). -/

namespace Sys2Proof.Machine

/-- The rational that a signed magnitude stands for where it is finite. -/
def signedValue (i : Int) : Rat :=
  i.sign * finiteMagnitude (i.natAbs / 2 ^ 52) (i.natAbs % 2 ^ 52)

@[simp] theorem finiteMagnitude_zero : finiteMagnitude 0 0 = 0 := by
  simp [finiteMagnitude_eq_scaled, scaledMagnitude]

theorem signedValue_natCast (m : Nat) :
    signedValue m = finiteMagnitude (m / 2 ^ 52) (m % 2 ^ 52) := by
  rcases Nat.eq_zero_or_pos m with rfl | hpos
  · simp [signedValue]
  · rw [signedValue, Int.sign_natCast_of_ne_zero hpos.ne', Int.natAbs_natCast, Int.cast_one, one_mul]

theorem signedValue_neg (i : Int) : signedValue (-i) = -signedValue i := by
  simp [signedValue]

/-- The magnitudes of finite patterns increase with bits 62..0, and the value is odd in the sign. -/
theorem signedValue_strictMono : StrictMono signedValue := by
  refine strictMono_of_odd_strictMonoOn_nonneg signedValue_neg fun i hi j hj hlt => ?_
  obtain ⟨m, rfl⟩ := Int.eq_ofNat_of_zero_le hi
  obtain ⟨n, rfl⟩ := Int.eq_ofNat_of_zero_le hj
  rw [signedValue_natCast, signedValue_natCast,
    finiteMagnitude_lt_iff (Nat.mod_lt m (by norm_num)) (Nat.mod_lt n (by norm_num))]
  omega

theorem finiteMagnitude_fields (w : Word) :
    finiteMagnitude (exponentOf w) (fractionOf w) = signedValue (magnitude w) := by
  have ht := fractionOf_lt w
  have hexp : magnitude w / 2 ^ 52 = exponentOf w := by rw [magnitude_eq_fields]; omega
  have hfrac : magnitude w % 2 ^ 52 = fractionOf w := by rw [magnitude_eq_fields]; omega
  rw [signedValue_natCast, hexp, hfrac]

/-- The signed magnitude of plus infinity. -/
def infinityMagnitude : Int := 0x7FF * 2 ^ 52

/-- The value that a signed magnitude stands for. -/
def valueOfSigned (i : Int) : Value :=
  if infinityMagnitude ≤ i then .posInfinity
  else if i ≤ -infinityMagnitude then .negInfinity
  else .finite (signedValue i)

theorem signedMagnitude_mem_Icc {w : Word} (h : isNaN w = false) :
    signedMagnitude w ∈ Set.Icc (-infinityMagnitude) infinityMagnitude := by
  have hm := magnitude_le_of_not_isNaN h
  rw [Set.mem_Icc, infinityMagnitude, signedMagnitude]
  split_ifs <;> omega

/-- A pattern with a value has the one of its signed magnitude: an infinity has the exponent field 0x7FF and
the fraction 0, and a finite pattern the rational of its fields. -/
theorem val_eq_valueOfSigned {w : Word} (h : isNaN w = false) :
    val w = some (valueOfSigned (signedMagnitude w)) := by
  have hm := magnitude_eq_fields w
  have hle := magnitude_le_of_not_isNaN h
  have hinf : infinityMagnitude = 0x7FF * 2 ^ 52 := rfl
  by_cases hexp : exponentOf w = 0x7FF
  · have hfrac : fractionOf w = 0 := by omega
    have hmag : (magnitude w : Int) = infinityMagnitude := by omega
    cases hs : w[63] with
    | true => simp [val, hexp, hfrac, signBit_eq, hs, signedMagnitude, hmag, valueOfSigned, hinf]
    | false => simp [val, hexp, hfrac, signBit_eq, hs, signedMagnitude, hmag, valueOfSigned]
  · have ht := fractionOf_lt w
    have he := exponentOf_lt w
    have hlow : ¬ signedMagnitude w ≤ -infinityMagnitude := by
      rw [signedMagnitude]
      split_ifs <;> omega
    have hhigh : ¬ infinityMagnitude ≤ signedMagnitude w := by
      rw [signedMagnitude]
      split_ifs <;> omega
    rw [val, if_neg hexp, finiteMagnitude_fields, valueOfSigned, if_neg hhigh, if_neg hlow, signBit_eq]
    cases hs : w[63] with
    | true => simp [signedMagnitude, hs, signedValue_neg]
    | false => simp [signedMagnitude, hs]

/-- On the patterns that have a value the value increases with the signed magnitude. -/
theorem valueOfSigned_rank_strictMonoOn :
    StrictMonoOn (fun i => (valueOfSigned i).rank) (Set.Icc (-infinityMagnitude) infinityMagnitude) := by
  intro i hi j hj hlt
  have hbelow : ¬ infinityMagnitude ≤ i := not_le.mpr (hlt.trans_le hj.2)
  have habove : ¬ j ≤ -infinityMagnitude := not_le.mpr (hi.1.trans_lt hlt)
  have hfinite := signedValue_strictMono hlt
  simp only [← Value.less_iff_rank_lt, valueOfSigned, if_neg hbelow, if_neg habove]
  split_ifs <;> simp [Value.less, hfinite]

theorem valueRank_eq {w : Word} (h : isNaN w = false) :
    valueRank w = (valueOfSigned (signedMagnitude w)).rank := by
  rw [valueRank, val_eq_valueOfSigned h, Option.elim_some]

theorem isNaN_of_numLess {a b : Word} (h : numLess a b = true) : isNaN a = false ∧ isNaN b = false := by
  rw [isNaN_eq_false_iff, isNaN_eq_false_iff]
  unfold numLess at h
  split at h
  · exact ⟨⟨_, by assumption⟩, ⟨_, by assumption⟩⟩
  · cases h

/-- Numeric comparison is false of a NaN, and otherwise the comparison of the signed magnitudes. -/
theorem numLess_iff_signedMagnitude {a b : Word} :
    numLess a b = true ↔ isNaN a = false ∧ isNaN b = false ∧ signedMagnitude a < signedMagnitude b := by
  have hordered : isNaN a = false → isNaN b = false →
      (numLess a b = true ↔ signedMagnitude a < signedMagnitude b) := fun ha hb => by
    rw [numLess_iff_valueRank_lt ha hb, valueRank_eq ha, valueRank_eq hb]
    exact valueOfSigned_rank_strictMonoOn.lt_iff_lt (signedMagnitude_mem_Icc ha) (signedMagnitude_mem_Icc hb)
  refine ⟨fun h => ?_, fun ⟨ha, hb, hlt⟩ => (hordered ha hb).mpr hlt⟩
  obtain ⟨ha, hb⟩ := isNaN_of_numLess h
  exact ⟨ha, hb, (hordered ha hb).mp h⟩

theorem numEqual_iff_signedMagnitude {a b : Word} :
    numEqual a b = true ↔ isNaN a = false ∧ isNaN b = false ∧ signedMagnitude a = signedMagnitude b := by
  rw [numEqual_iff]
  refine and_congr_right fun ha => and_congr_right fun hb => ?_
  rw [valueRank_eq ha, valueRank_eq hb]
  exact valueOfSigned_rank_strictMonoOn.injOn.eq_iff (signedMagnitude_mem_Icc ha) (signedMagnitude_mem_Icc hb)

end Sys2Proof.Machine
end

section
/-! PROOFS. The order of keys is that of the signed magnitudes, but for the two zeros (40_encode R65 to R67). -/

namespace Sys2Proof.Machine

theorem encodeKey_lt_of_signs {a b : Word} (ha : a[63] = true) (hb : b[63] = false) :
    encodeKey a < encodeKey b := by
  have hka := toNat_encodeKey_of_sign ha
  have hkb := toNat_encodeKey_of_not_sign hb
  rw [BitVec.lt_def]
  omega

theorem encodeKey_lt_iff_of_sign_eq {a b : Word} (h : a[63] = b[63]) :
    encodeKey a < encodeKey b ↔ signedMagnitude a < signedMagnitude b := by
  have hka := toNat_encodeKey a
  have hkb := toNat_encodeKey b
  rw [h] at hka
  rw [BitVec.lt_def]
  omega

/-- Two signs have one signed magnitude only at the two zeros. -/
theorem zeros_of_signedMagnitude_eq {a b : Word} (ha : a[63] = true) (hb : b[63] = false)
    (h : signedMagnitude a = signedMagnitude b) : a = 0x8000000000000000 ∧ b = 0x0000000000000000 := by
  rw [signedMagnitude_of_sign ha, signedMagnitude_of_not_sign hb] at h
  have hmaga : magnitude a = 0 := by omega
  have hmagb : magnitude b = 0 := by omega
  exact ⟨eq_of_sign_of_magnitude ha hmaga, eq_of_sign_of_magnitude hb hmagb⟩

theorem encodeKey_lt_of_signedMagnitude_lt {a b : Word} (h : signedMagnitude a < signedMagnitude b) :
    encodeKey a < encodeKey b := by
  cases ha : a[63] with
  | true =>
    cases hb : b[63] with
    | true => exact (encodeKey_lt_iff_of_sign_eq (ha.trans hb.symm)).mpr h
    | false => exact encodeKey_lt_of_signs ha hb
  | false =>
    cases hb : b[63] with
    | true =>
      rw [signedMagnitude_of_not_sign ha, signedMagnitude_of_sign hb] at h
      omega
    | false => exact (encodeKey_lt_iff_of_sign_eq (ha.trans hb.symm)).mpr h

/-- The keys part where the signed magnitudes agree at the two zeros alone. -/
theorem signedMagnitude_lt_or_zeros_of_encodeKey_lt {a b : Word} (h : encodeKey a < encodeKey b) :
    signedMagnitude a < signedMagnitude b ∨
      (signedMagnitude a = signedMagnitude b ∧ a = 0x8000000000000000 ∧ b = 0x0000000000000000) := by
  cases ha : a[63] with
  | true =>
    cases hb : b[63] with
    | true => exact .inl ((encodeKey_lt_iff_of_sign_eq (ha.trans hb.symm)).mp h)
    | false =>
      have hle : signedMagnitude a ≤ signedMagnitude b := by
        rw [signedMagnitude_of_sign ha, signedMagnitude_of_not_sign hb]
        omega
      exact hle.lt_or_eq.imp_right fun heq => ⟨heq, zeros_of_signedMagnitude_eq ha hb heq⟩
  | false =>
    cases hb : b[63] with
    | true => exact absurd h (BitVec.lt_asymm (encodeKey_lt_of_signs hb ha))
    | false => exact .inl ((encodeKey_lt_iff_of_sign_eq (ha.trans hb.symm)).mp h)

theorem lexLess_keys_of_encodeKey_lt {a b : Word} (h : encodeKey a < encodeKey b) :
    lexLess (toBytes (encodeKey a)) (toBytes (encodeKey b)) = true :=
  lexLess_toBytes_iff.mpr h

/-- Settles O22: values and keys both follow the signed magnitude, but for the two zeros. -/
theorem orderPreservation : Obligations.OrderPreservation := by
  refine fun a b ha hb => ⟨fun hless => ?_, fun hkey => ?_⟩
  · obtain ⟨-, -, hlt⟩ := numLess_iff_signedMagnitude.mp hless
    have hkey := encodeKey_lt_of_signedMagnitude_lt hlt
    exact ⟨hkey, lexLess_keys_of_encodeKey_lt hkey⟩
  · rcases signedMagnitude_lt_or_zeros_of_encodeKey_lt hkey with hlt | ⟨heq, hzeros⟩
    · exact .inl (numLess_iff_signedMagnitude.mpr ⟨ha, hb, hlt⟩)
    · exact .inr ⟨numEqual_iff_signedMagnitude.mpr ⟨ha, hb, heq⟩, hzeros⟩

/-- Settles O23: two keys of one signed magnitude that differ are those of the two zeros. -/
theorem equalityOfKeys : Obligations.EqualityOfKeys := by
  refine ⟨fun _ _ => encodeKey_inj, fun a b h => ?_⟩
  obtain ⟨-, -, heq⟩ := numEqual_iff_signedMagnitude.mp h
  rcases BitVec.lt_trichotomy (encodeKey a) (encodeKey b) with hlt | hkey | hgt
  · rcases signedMagnitude_lt_or_zeros_of_encodeKey_lt hlt with hbelow | ⟨-, hzeros⟩
    · exact absurd heq hbelow.ne
    · exact .inr (.inr hzeros)
  · exact .inl hkey
  · rcases signedMagnitude_lt_or_zeros_of_encodeKey_lt hgt with habove | ⟨-, hb, ha⟩
    · exact absurd heq habove.ne'
    · exact .inr (.inl ⟨ha, hb⟩)

/-- Settles O21: a numerically negative input has a signed magnitude below 0, a non-negative one has none
below 0, and minus zero has the least magnitude of sign 1. -/
theorem signSeparation : Obligations.SignSeparation := by
  refine ⟨fun a b ha hb => ?_, fun a b ha hb => ?_, fun a ha => ?_⟩
  · exact ⟨encodeKey_lt_of_signs ha hb, by simp [ha], by simp [hb]⟩
  · obtain ⟨-, -, hneg⟩ := numLess_iff_signedMagnitude.mp ha
    have hnonneg : signedMagnitude 0 ≤ signedMagnitude b := by
      rcases hb with hpos | hzero
      · obtain ⟨-, -, hlt⟩ := numLess_iff_signedMagnitude.mp hpos
        exact hlt.le
      · obtain ⟨-, -, heq⟩ := numEqual_iff_signedMagnitude.mp hzero
        exact heq.ge
    exact lexLess_keys_of_encodeKey_lt (encodeKey_lt_of_signedMagnitude_lt (hneg.trans_le hnonneg))
  · have hkey := toNat_encodeKey_of_sign ha
    have hzero : encodeKey 0x8000000000000000 = 0x7FFFFFFFFFFFFFFF := by decide
    rw [hzero]
    bv_omega

end Sys2Proof.Machine
end

section
/-! PROOFS. On true observations without a NaN and without both zeros the two sorts of 30_encoding R55 are
sorts by one rank (95_test_vectors W4). -/

namespace Sys2Proof.Machine

theorem valueBelow_iff_key_lt {l : List Observation} (htrue : ∀ o ∈ l, o.key = encodeKey o.input)
    (hvalue : ∀ o ∈ l, isNaN o.input = false)
    (hzeros : ¬ ((∃ o ∈ l, o.input = 0x0000000000000000) ∧ (∃ o ∈ l, o.input = 0x8000000000000000))) :
    ∀ a ∈ l, ∀ b ∈ l, valueBelow a b = true ↔ a.key.toNat < b.key.toNat := by
  intro a ha b hb
  obtain ⟨hless, hkey⟩ := orderPreservation a.input b.input (hvalue a ha) (hvalue b hb)
  rw [htrue a ha, htrue b hb, valueBelow]
  refine ⟨fun h => (hless h).1, fun h => (hkey h).resolve_right ?_⟩
  rintro ⟨-, haz, hbz⟩
  exact hzeros ⟨⟨b, hb, hbz⟩, ⟨a, ha, haz⟩⟩

/-- Settles O38: both sorts are insertion sorts by the key. -/
theorem sortingByKeyAndByValueAgree : Obligations.SortingByKeyAndByValueAgree := by
  intro draw l htrue hvalue hzeros
  have hsame : sortByKey l = sortByValue draw l := by
    rw [(sortByValue_of_ordered hvalue draw).1,
      sortBy_eq_insertionSort (valueBelow_iff_key_lt htrue hvalue hzeros)]
    exact sortBy_eq_insertionSort fun _ _ _ _ => keyBelow_iff
  exact ⟨hsame, sameOrder_iff.mpr (congrArg _ hsame)⟩

end Sys2Proof.Machine
end

section
/-! PROOFS. The ten ranks of inputs are ten tiling ranges of keys, in order (40_encode R68). -/

namespace Sys2Proof.Machine

theorem rankOf_mem (w : Word) : 1 ≤ rankOf w ∧ rankOf w ≤ 10 := by
  unfold rankOf
  cases signBit w <;> cases classOf w <;> decide

/-- The range of a rank is the range of magnitudes of its class, which the sign takes to keys. -/
theorem encodeKey_mem_rankKeys (w : Word) :
    (rankKeys (rankOf w)).1 ≤ encodeKey w ∧ encodeKey w ≤ (rankKeys (rankOf w)).2 := by
  have hmem := magnitude_mem_classMagnitudes w
  rw [rankOf, signBit_eq]
  cases hs : w[63] with
  | true =>
    have hkey := toNat_encodeKey_of_sign hs
    cases hc : classOf w <;> simp only [hc, classMagnitudes] at hmem <;> simp only [rankKeys] <;> bv_omega
  | false =>
    have hkey := toNat_encodeKey_of_not_sign hs
    cases hc : classOf w <;> simp only [hc, classMagnitudes] at hmem <;> simp only [rankKeys] <;> bv_omega

theorem rankKeys_lt {r r' : Nat} (hr : 1 ≤ r) (hlt : r < r') (hr' : r' ≤ 10) :
    (rankKeys r).2 < (rankKeys r').1 := by
  have hall : ∀ r' ≤ 10, ∀ r < r', 1 ≤ r → (rankKeys r).2 < (rankKeys r').1 := by decide
  exact hall r' hr' r hlt hr

theorem rankKeys_tile {r : Nat} (hlow : 1 ≤ r) (hhigh : r < 10) :
    (rankKeys r).2.toNat + 1 = (rankKeys (r + 1)).1.toNat := by
  have hall : ∀ r < 10, 1 ≤ r → (rankKeys r).2.toNat + 1 = (rankKeys (r + 1)).1.toNat := by decide
  exact hall r hhigh hlow

theorem rankOf_eq_iff {w : Word} {r : Nat} (hlow : 1 ≤ r) (hhigh : r ≤ 10) :
    rankOf w = r ↔ (rankKeys r).1 ≤ encodeKey w ∧ encodeKey w ≤ (rankKeys r).2 := by
  constructor
  · rintro rfl
    exact encodeKey_mem_rankKeys w
  · rintro ⟨hge, hle⟩
    obtain ⟨hwge, hwle⟩ := encodeKey_mem_rankKeys w
    obtain ⟨hwlow, hwhigh⟩ := rankOf_mem w
    rcases Nat.lt_trichotomy (rankOf w) r with hlt | heq | hgt
    · have hgap := rankKeys_lt hwlow hlt hhigh
      bv_omega
    · exact heq
    · have hgap := rankKeys_lt hlow hgt hwhigh
      bv_omega

theorem encodeKey_lt_of_rankOf_lt {v w : Word} (h : rankOf v < rankOf w) : encodeKey v < encodeKey w := by
  obtain ⟨-, hv⟩ := encodeKey_mem_rankKeys v
  obtain ⟨hw, -⟩ := encodeKey_mem_rankKeys w
  have hgap := rankKeys_lt (rankOf_mem v).1 h (rankOf_mem w).2
  bv_omega

theorem sign_eq_decide_rankOf (w : Word) : w[63] = decide (rankOf w ≤ 5) := by
  rw [rankOf, signBit_eq]
  cases w[63] <;> cases classOf w <;> rfl

theorem isNaN_iff_rankOf {w : Word} : isNaN w = true ↔ rankOf w = 1 ∨ rankOf w = 10 := by
  rw [isNaN_iff_classOf, rankOf]
  cases signBit w <;> cases classOf w <;> decide

theorem sign_eq_of_rankOf_eq {v w : Word} (h : rankOf v = rankOf w) : v[63] = w[63] := by
  rw [sign_eq_decide_rankOf, sign_eq_decide_rankOf, h]

/-- All NaNs have one exponent field, so that their payloads order their magnitudes. -/
theorem magnitude_lt_iff_of_isNaN {v w : Word} (hv : isNaN v = true) (hw : isNaN w = true) :
    magnitude v < magnitude w ↔ fractionOf v < fractionOf w := by
  have hexp : ∀ {u : Word}, isNaN u = true → exponentOf u = 0x7FF := by
    intro u hu
    rw [isNaN, Bool.and_eq_true, beq_iff_eq] at hu
    exact hu.1
  rw [magnitude_eq_fields, magnitude_eq_fields, hexp hv, hexp hw]
  omega

/-- Inside a rank that has values the keys follow them. -/
theorem numLess_iff_encodeKey_lt_of_rankOf_eq {v w : Word} (hrank : rankOf v ∈ [3, 4, 7, 8])
    (heq : rankOf w = rankOf v) : numLess v w = true ↔ encodeKey v < encodeKey w := by
  have hv : isNaN v = false := by
    rw [← Bool.not_eq_true, isNaN_iff_rankOf]
    intro hnan
    simp only [List.mem_cons, List.not_mem_nil, or_false] at hrank
    omega
  have hw : isNaN w = false := by
    rw [← Bool.not_eq_true, isNaN_iff_rankOf, heq, ← isNaN_iff_rankOf, hv]
    exact Bool.false_ne_true
  rw [encodeKey_lt_iff_of_sign_eq (sign_eq_of_rankOf_eq heq.symm), numLess_iff_signedMagnitude]
  exact ⟨fun ⟨_, _, hlt⟩ => hlt, fun hlt => ⟨hv, hw, hlt⟩⟩

/-- Among the NaNs of sign 1 a larger payload comes first. -/
theorem encodeKey_lt_of_rankOf_one {v w : Word} (hv : rankOf v = 1) (hw : rankOf w = 1)
    (hlt : fractionOf w < fractionOf v) : encodeKey v < encodeKey w := by
  have hsignv : v[63] = true := by rw [sign_eq_decide_rankOf, hv]; rfl
  have hsignw : w[63] = true := by rw [sign_eq_decide_rankOf, hw]; rfl
  have hmag := (magnitude_lt_iff_of_isNaN (isNaN_iff_rankOf.mpr (.inl hw))
    (isNaN_iff_rankOf.mpr (.inl hv))).mpr hlt
  apply encodeKey_lt_of_signedMagnitude_lt
  rw [signedMagnitude_of_sign hsignv, signedMagnitude_of_sign hsignw]
  omega

/-- Among the NaNs of sign 0 a smaller payload comes first. -/
theorem encodeKey_lt_of_rankOf_ten {v w : Word} (hv : rankOf v = 10) (hw : rankOf w = 10)
    (hlt : fractionOf v < fractionOf w) : encodeKey v < encodeKey w := by
  have hsignv : v[63] = false := by rw [sign_eq_decide_rankOf, hv]; rfl
  have hsignw : w[63] = false := by rw [sign_eq_decide_rankOf, hw]; rfl
  have hmag := (magnitude_lt_iff_of_isNaN (isNaN_iff_rankOf.mpr (.inr hv))
    (isNaN_iff_rankOf.mpr (.inr hw))).mpr hlt
  apply encodeKey_lt_of_signedMagnitude_lt
  rw [signedMagnitude_of_not_sign hsignv, signedMagnitude_of_not_sign hsignw]
  omega

/-- Settles O24: the ranges tile, so that the range a key lies in is its rank's; inside a rank the sign and
the magnitudes decide. -/
theorem totalOrderByRanks : Obligations.TotalOrderByRanks :=
  ⟨fun _ _ => rankOf_eq_iff, rfl, rfl, fun _ => rankKeys_tile, fun _ _ => encodeKey_lt_of_rankOf_lt,
   fun _ _ => encodeKey_lt_of_rankOf_one, fun _ _ => encodeKey_lt_of_rankOf_ten,
   fun _ _ => numLess_iff_encodeKey_lt_of_rankOf_eq⟩

end Sys2Proof.Machine
end

section
/-! PROOFS. The absence of exceptions (60_exceptions R78). -/

namespace Sys2Proof.Machine

/-- Settles O32: a transaction's next state is a drive and an observation, whatever the word; and a fault
would be a value of `Fault`, which has none, so that no state needs to be looked at. -/
theorem nothingEverFaults : Obligations.NothingEverFaults :=
  ⟨fun w s => ⟨(s.drive w).observe w, exec_decode w s⟩, fun _ r => nomatch r⟩

end Sys2Proof.Machine
end

section
/-! PROOFS. Every update of a state keeps what the host holds sound, and so does every step (70_reset R95,
R100; 30_encoding R55). -/

namespace Sys2Proof.Machine

theorem State.Sound.withProgram {s : State} (hs : s.Sound) (p : List HostStep) : (s.withProgram p).Sound := hs

theorem State.Sound.withDraws {s : State} (hs : s.Sound) (d : Nat) : (s.withDraws d).Sound := hs

/-- After a drive the clause about an undriven input asks for nothing. -/
theorem State.Sound.drive {s : State} (hs : s.Sound) (w : Word) : (s.drive w).Sound := by
  obtain ⟨htrue, horders, -⟩ := hs
  exact ⟨htrue, horders, nofun⟩

/-- An observation of a driven word adds a true pair, and the kept lists name the pairs they named. -/
theorem State.Sound.observe {s : State} {w : Word} (hs : s.Sound) (hw : s.applied = some w) :
    (s.observe w).Sound := by
  obtain ⟨htrue, horders, -⟩ := hs
  refine ⟨?_, ?_, ?_⟩
  · rw [State.observe_pairs, List.forall_mem_append, List.forall_mem_singleton]
    exact ⟨htrue, rfl⟩
  · intro l hl o ho
    exact List.mem_append_left _ (horders l hl o ho)
  · intro hnone
    rw [State.observe_applied, hw] at hnone
    cases hnone

/-- Keeping a result is sound when it is no list, or one that names only sampled pairs. -/
theorem State.Sound.addResult {s : State} {r : HostResult} (hs : s.Sound)
    (hr : ∀ l, r = .order l → ∀ o ∈ l, o ∈ s.pairs) : (s.addResult r).Sound := by
  obtain ⟨htrue, horders, hundriven⟩ := hs
  refine ⟨htrue, fun l hl => ?_, hundriven⟩
  rw [State.addResult_results, List.mem_append, List.mem_singleton] at hl
  rcases hl with hold | hnew
  · exact horders l hold
  · exact hr l hnew.symm

/-- A list that a host step keeps is what a list expression names, which are sampled pairs alone. -/
theorem State.Sound.of_runHostStep {h : HostStep} {s t : State} (hs : s.Sound)
    (hrun : runHostStep h s = .next t) : t.Sound := by
  rcases runHostStep_cases hrun with ⟨w, rfl⟩ | ⟨w, rfl⟩ | ⟨w, hw, rfl⟩ | ⟨e, l, d, heval, rfl⟩ |
    ⟨r, d, hr, hend⟩
  · exact hs.drive w
  · exact (hs.drive w).observe rfl
  · exact hs.observe hw
  · have ⟨_, horders, _⟩ := hs
    refine (hs.withDraws d).addResult fun l' hl' => ?_
    cases hl'
    exact mem_pairs_of_evalList horders heval
  · have hadd : ((s.withDraws d).addResult r).Sound := (hs.withDraws d).addResult fun l hl => absurd hl (hr l)
    rcases hend with rfl | rfl
    · exact hadd
    · exact hadd.withProgram []

/-- Settles O40: a step is a host step on the state with the rest of the program, and host steps keep
soundness. -/
theorem stepKeepsTheHostsDataSound : Obligations.StepKeepsTheHostsDataSound := by
  intro s t hs hstep
  obtain ⟨hd, rest, -, hrun⟩ := step_cases hstep
  exact (hs.withProgram rest).of_runHostStep hrun

end Sys2Proof.Machine
end

section
/-! PROOFS. A step uses up the head of the program and adds at most one record (70_reset R100; 60_exceptions
R85). -/

namespace Sys2Proof.Machine

/-- A host step leaves the program it was given or, after a failing check, none. -/
theorem program_suffix_of_runHostStep {h : HostStep} {s t : State} (hrun : runHostStep h s = .next t) :
    t.program <:+ s.program := by
  rcases runHostStep_cases hrun with ⟨w, rfl⟩ | ⟨w, rfl⟩ | ⟨w, -, rfl⟩ | ⟨e, l, d, -, rfl⟩ |
    ⟨r, d, -, rfl | rfl⟩
  · exact List.suffix_rfl
  · exact List.suffix_rfl
  · exact List.suffix_rfl
  · exact List.suffix_rfl
  · exact List.suffix_rfl
  · exact List.nil_suffix

/-- A host step adds nothing, one pair, or one result. -/
theorem records_of_runHostStep {h : HostStep} {s t : State} (hrun : runHostStep h s = .next t) :
    (t.pairs = s.pairs ∧ t.results = s.results) ∨
    (∃ o, t.pairs = s.pairs ++ [o] ∧ t.results = s.results) ∨
    (∃ r, t.pairs = s.pairs ∧ t.results = s.results ++ [r]) := by
  rcases runHostStep_cases hrun with ⟨w, rfl⟩ | ⟨w, rfl⟩ | ⟨w, -, rfl⟩ | ⟨e, l, d, -, rfl⟩ |
    ⟨r, d, -, rfl | rfl⟩
  · exact .inl ⟨rfl, rfl⟩
  · exact .inr (.inl ⟨_, rfl, rfl⟩)
  · exact .inr (.inl ⟨_, rfl, rfl⟩)
  · exact .inr (.inr ⟨_, rfl, rfl⟩)
  · exact .inr (.inr ⟨_, rfl, rfl⟩)
  · exact .inr (.inr ⟨_, rfl, rfl⟩)

/-- Settles O42: what is left is a suffix of the tail of the program, and the records are the old ones with
nothing, one pair, or one result after them. -/
theorem stepsUseUpTheProgram : Obligations.StepsUseUpTheProgram := by
  intro s t hstep
  obtain ⟨hd, rest, hprog, hrun⟩ := step_cases hstep
  have hsuffix : t.program <:+ rest := program_suffix_of_runHostStep hrun
  have hlength := hsuffix.length_le
  rw [hprog]
  refine ⟨hsuffix.trans (List.suffix_cons hd rest), by rw [List.length_cons]; omega, ?_⟩
  rcases records_of_runHostStep hrun with ⟨hpairs, hresults⟩ | ⟨o, hpairs, hresults⟩ | ⟨r, hpairs, hresults⟩
  · simp [hpairs, hresults]
  · simp [hpairs, hresults, Nat.add_right_comm]
  · simp [hpairs, hresults, Nat.add_assoc]

end Sys2Proof.Machine
end

section
/-! PROOFS. Transactions as steps of a run: alone, in a row, as a drive and a sample, and first after reset
(70_reset R93, R96, R98, R100). -/

namespace Sys2Proof.Machine

/-- Settles O5: the step runs the transaction as a host step, which is `exec` of the decoded word. -/
theorem stepRunsTheDecodedInstruction : Obligations.StepRunsTheDecodedInstruction := by
  rintro s w rest _ hprog rfl
  exact step_of_program_cons hprog

/-- Settles O31: each transaction is a drive and an observation of its own word, whatever stood before. -/
theorem successiveTransactionsAreIndependent : Obligations.SuccessiveTransactionsAreIndependent := by
  intro v w s
  refine ⟨_, _, exec_decode v s, exec_decode w _, ?_⟩
  simp

theorem runHostStep_transaction (w : Word) (s : State) :
    runHostStep (.transaction w) s = .next ((s.drive w).observe w) := exec_decode w s

theorem runHostStep_sample {w : Word} {s : State} (h : s.applied = some w) :
    runHostStep .sample s = .next (s.observe w) :=
  hostSample_eq_next_iff.mpr ⟨w, h, rfl⟩

/-- Settles O33: both ways the word is on the port when the sample observes it. -/
theorem transactionIsDriveThenSample : Obligations.TransactionIsDriveThenSample := by
  refine ⟨fun _ _ => rfl, fun _ _ => runHostStep_sample, fun w s t hdrive => ?_⟩
  cases hdrive
  rw [runHostStep_transaction, runHostStep_sample (State.drive_applied s w)]

/-- A whole input word is placed as it is: reducing it to 64 bits changes nothing. -/
theorem State.withFetchWord_toNat (s : State) (w : Word) :
    s.withFetchWord 64 w.toNat = s.withProgram (.transaction w :: s.program) := by
  rw [State.withFetchWord, Nat.mod_eq_of_lt w.isLt, BitVec.ofNat_toNat, BitVec.setWidth_eq]

/-- Settles O43: the placed transaction is the head of the program, and reset holds nothing else. -/
theorem firstTransactionAfterReset : Obligations.FirstTransactionAfterReset := by
  intro w
  rw [State.withFetchWord_toNat, step_of_program_cons (State.withProgram_program _ _), runHostStep_transaction]
  rfl

end Sys2Proof.Machine
end

section
/-! PROOFS. The classes of 30_encoding R53 are disjoint ranges of the magnitude, and so ranges of patterns. -/

namespace Sys2Proof.Machine

theorem classMagnitudes_disjoint {c c' : InputClass} (h : c ≠ c') :
    (classMagnitudes c).2 < (classMagnitudes c').1 ∨ (classMagnitudes c').2 < (classMagnitudes c).1 := by
  cases c <;> cases c' <;> simp [classMagnitudes] at h ⊢

theorem classOf_eq_iff {w : Word} {c : InputClass} :
    classOf w = c ↔ (classMagnitudes c).1 ≤ magnitude w ∧ magnitude w ≤ (classMagnitudes c).2 := by
  have hmem := magnitude_mem_classMagnitudes w
  refine ⟨fun h => h ▸ hmem, fun hc => ?_⟩
  by_contra hne
  have hgap := classMagnitudes_disjoint hne
  omega

theorem classOf_congr {v w : Word} (h : magnitude v = magnitude w) : classOf v = classOf w := by
  rw [classOf_eq_iff, h]
  exact magnitude_mem_classMagnitudes w

@[simp] theorem magnitude_xor_sign (w : Word) : magnitude (w ^^^ 0x8000000000000000) = magnitude w :=
  congrArg BitVec.toNat (orderField_xor_sign w)

theorem magnitude_of_not_sign {w : Word} (h : w[63] = false) : magnitude w = w.toNat := by
  rw [toNat_eq_magnitude, h, if_neg Bool.false_ne_true, Nat.add_zero]

/-- Settles O28: a pattern with sign 0 is its magnitude, and the classes are ranges of it; the sign is no
part of the magnitude. -/
theorem classesAreRangesOfPatterns : Obligations.ClassesAreRangesOfPatterns := by
  refine ⟨fun w hsign => ?_, fun w => classOf_congr (magnitude_xor_sign w), fun _ => isNaN_iff_classOf.symm⟩
  simp only [classOf_eq_iff, classMagnitudes, magnitude_of_not_sign hsign]
  refine ⟨?_, ?_, ?_, ?_, ?_⟩ <;> bv_omega

end Sys2Proof.Machine
end

section
/-! PROOFS. The value of every pattern, in integer powers of 2 (00_scope R18). -/

namespace Sys2Proof.Machine

theorem finiteMagnitude_of_exponent_zero (t : Nat) :
    finiteMagnitude 0 t = (2 : Rat) ^ (-1022 : Int) * ((t : Rat) / 2 ^ 52) := by
  rw [finiteMagnitude, if_pos rfl, twoPower_eq_zpow, Rat.mkRat_eq_div]
  norm_num [Config.exponentBias, Config.fractionBits]

theorem finiteMagnitude_of_exponent_pos {e : Nat} (he : 1 ≤ e) (t : Nat) :
    finiteMagnitude e t = (2 : Rat) ^ ((e : Int) - 1023) * (1 + (t : Rat) / 2 ^ 52) := by
  rw [finiteMagnitude, if_neg (by omega), twoPower_eq_zpow, Rat.mkRat_eq_div]
  norm_num [Config.exponentBias, Config.fractionBits]

/-- A finite pattern has the magnitude of its fields with its sign. -/
theorem val_of_finite {w : Word} (h : exponentOf w ≠ 0x7FF) :
    val w = some (.finite ((if w[63] then -1 else 1) * finiteMagnitude (exponentOf w) (fractionOf w))) := by
  rw [val, if_neg h, signBit_eq]
  cases w[63] with
  | true => simp
  | false => simp

theorem val_of_infinity {w : Word} (he : exponentOf w = 0x7FF) (ht : fractionOf w = 0) :
    val w = some (if w[63] then .negInfinity else .posInfinity) := by
  rw [val, if_pos he, if_neg (not_not.mpr ht), signBit_eq, ← apply_ite some]

theorem val_of_nan {w : Word} (he : exponentOf w = 0x7FF) (ht : fractionOf w ≠ 0) : val w = none := by
  rw [val, if_pos he, if_pos ht]

theorem numLess_of_isNaN {a b : Word} (h : isNaN a = true ∨ isNaN b = true) : numLess a b = false := by
  rw [← Bool.not_eq_true]
  intro hless
  obtain ⟨ha, hb⟩ := isNaN_of_numLess hless
  simp [ha, hb] at h

theorem numEqual_of_isNaN {a b : Word} (h : isNaN a = true ∨ isNaN b = true) : numEqual a b = false := by
  rw [← Bool.not_eq_true, numEqual_iff]
  rintro ⟨ha, hb, -⟩
  simp [ha, hb] at h

/-- Settles O27: one case per kind of pattern; the two zeros have the signed magnitude 0. -/
theorem valueOfAPattern : Obligations.ValueOfAPattern := by
  refine ⟨fun _ => val_of_nan, fun _ => val_of_infinity, fun w hlow hhigh => ?_, fun w he => ?_,
    numEqual_iff_signedMagnitude.mpr (by decide), fun a b ha => ⟨numLess_of_isNaN (.inl ha),
      numLess_of_isNaN (.inr ha), numEqual_of_isNaN (.inl ha), numEqual_of_isNaN (.inr ha)⟩⟩
  · rw [val_of_finite (by omega), finiteMagnitude_of_exponent_pos hlow, mul_assoc]
  · rw [val_of_finite (by omega), he, finiteMagnitude_of_exponent_zero, mul_assoc]

end Sys2Proof.Machine
end

section
/-! PROOFS. Before the host drives anything there is no output and nothing to sample, and reset is such a
state, sound and with nothing left to do (10_state R30; 70_reset R93 to R95). -/

namespace Sys2Proof.Machine

theorem State.key_of_undriven {s : State} (h : s.applied = none) : s.key = none := by
  rw [State.key, h, Option.map_none]

theorem State.keyBytes_of_undriven {s : State} (h : s.applied = none) : s.keyBytes = none := by
  rw [State.keyBytes, State.key_of_undriven h, Option.map_none]

theorem runHostStep_sample_of_undriven {s : State} (h : s.applied = none) :
    runHostStep .sample s = .refused .inputUndriven := by
  simp only [runHostStep, hostSample, h]

theorem step_of_program_nil {s : State} (h : s.program = []) : step s = .refused .programEnded := by
  simp only [step, h]

/-- Settles O34: both views are read off the input port, and so is what a sample observes. -/
theorem undrivenInputIsNotSampled : Obligations.UndrivenInputIsNotSampled :=
  fun _ h => ⟨State.key_of_undriven h, State.keyBytes_of_undriven h, runHostStep_sample_of_undriven h⟩

/-- Settles O41: reset holds no pair and no list, so no clause asks for anything. -/
theorem resetIsSound : Obligations.ResetIsSound := by
  refine ⟨?_, ?_, fun _ => rfl⟩
  · exact List.forall_mem_nil _
  · intro l hl
    cases hl

/-- Settles O44: reset drives nothing and has no program. -/
theorem resetHoldsNothing : Obligations.ResetHoldsNothing :=
  ⟨State.key_of_undriven rfl, State.keyBytes_of_undriven rfl, rfl, rfl, step_of_program_nil rfl⟩

end Sys2Proof.Machine
end
